-- ==== Sys2Proof/Word.lean ====
section
/-! DEFINITION. The word types of CORE: the byte (a register, a memory cell, an operand byte), the nine-bit program counter
and the register index. Rules R5, R12, R20 and R24. -/

namespace Sys2Proof

/-- An unsigned byte, bit 0 the least significant (R12): a general register, a memory cell or an instruction byte. -/
abbrev Byte := BitVec 8

/-- The program counter's nine bits (R24, the spec's decision D1): 0..255 are addresses, 256 is one past the last cell. -/
abbrev PcWord := BitVec 9

/-- The flag register's three bits (R28, the spec's decision D8): E is bit 0, G is bit 1, L is bit 2. -/
abbrev FlagWord := BitVec 3

/-- A legal register index, 0..7 (R20, R74). -/
abbrev RegIdx := Fin 8

end Sys2Proof
end

