-- ==== Sys2Proof/Syntax.lean ====
section
/-! DEFINITION. The 21 instructions of the opcode table (R77), one constructor per row. An operand is the whole operand byte
as it stands in memory (R73): which register bytes are legal is WellFormed's business (R74), and what an illegal one does is
the machine's (R95). -/

namespace Sys2Proof

/-- The instructions of R77. `a` and `b` are operand bytes that name registers, `v` is LDI's literal byte (R75). -/
inductive Instr where
  | hlt
  | ret
  | push (a : Byte)
  | pop (a : Byte)
  | call (a : Byte)
  | jmp (a : Byte)
  | jeq (a : Byte)
  | jne (a : Byte)
  | prn (a : Byte)
  | pra (a : Byte)
  | ldi (a v : Byte)
  | cmp (a b : Byte)
  | add (a b : Byte)
  | sub (a b : Byte)
  | mul (a b : Byte)
  | div (a b : Byte)
  | mod (a b : Byte)
  | or (a b : Byte)
  | xor (a b : Byte)
  | shl (a b : Byte)
  | shr (a b : Byte)
  deriving DecidableEq, Repr

/-- The register operand bytes of an instruction, in the order the dispatcher checks them: operand A, then operand B of the
ten ALU instructions (R74, R95). LDI's operand B is a literal and is not among them. -/
def Instr.regOperands : Instr → List Byte
  | .hlt | .ret => []
  | .push a | .pop a | .call a | .jmp a | .jeq a | .jne a | .prn a | .pra a => [a]
  | .ldi a _ => [a]
  | .cmp a b | .add a b | .sub a b | .mul a b | .div a b | .mod a b
  | .or a b | .xor a b | .shl a b | .shr a b => [a, b]

end Sys2Proof
end

