-- ==== Sys2Proof/Decode.lean ====
section
/-! DEFINITION. Decoding by the whole opcode byte (R76) over the table of R77, total on any bytes and rejecting by name
(R80, R93); then the encoder, written from the same table; then the word form the host's table numbering uses. -/

namespace Sys2Proof

/-- What a row of the opcode table makes of its operand bytes: formats Z, R, and RI or RR of R72. -/
inductive Form where
  | nullary (i : Instr)
  | unary (mk : Byte → Instr)
  | binary (mk : Byte → Byte → Instr)

/-- The number of operand bytes of a form (R70: the instruction's length is this plus one). -/
def Form.operandCount : Form → Nat
  | .nullary _ => 0
  | .unary _ => 1
  | .binary _ => 2

/-- The opcode table of R77, in its order. -/
def opcodeTable : List (Byte × Form) :=
  [ (0x01#8, .nullary .hlt),
    (0x11#8, .nullary .ret),
    (0x45#8, .unary .push),
    (0x46#8, .unary .pop),
    (0x50#8, .unary .call),
    (0x54#8, .unary .jmp),
    (0x55#8, .unary .jeq),
    (0x56#8, .unary .jne),
    (0x47#8, .unary .prn),
    (0x48#8, .unary .pra),
    (0x82#8, .binary .ldi) ] ++
  [ (0xA7#8, .binary .cmp),
    (0xA0#8, .binary .add),
    (0xA1#8, .binary .sub),
    (0xA2#8, .binary .mul),
    (0xA3#8, .binary .div),
    (0xA4#8, .binary .mod),
    (0xAA#8, .binary .or),
    (0xAB#8, .binary .xor),
    (0xAC#8, .binary .shl),
    (0xAD#8, .binary .shr) ]

/-- The dispatcher's lookup: equality on all eight bits (R76, R92). None is an undefined opcode byte (R80). -/
def lookup (op : Byte) : Option Form :=
  (opcodeTable.find? fun row => row.1 == op).map fun row => row.2

/-- NOPS, bits 7:6 of an opcode byte (R71). -/
def operandCountField (op : Byte) : Nat := (op.extractLsb' 6 2).toNat

/-- SETSPC, bit 4 of an opcode byte: the handler writes pc itself (R71). -/
def setsPcField (op : Byte) : Bool := op.getLsbD 4

/-- Why bytes hold no instruction: none are left, the opcode byte is not in the table (R80), or the operand byte at this
offset from the opcode is missing (R93). -/
inductive DecodeError where
  | noOpcode
  | unknownOpcode (op : Byte)
  | missingOperand (offset : Nat)
  deriving DecidableEq, Repr

/-- The instruction at the head of a byte list and the bytes after it. The table lookup comes before any operand (R92), and
operand A before operand B (R93). -/
def decode : List Byte → Except DecodeError (Instr × List Byte)
  | [] => .error .noOpcode
  | op :: rest =>
    match lookup op with
    | none => .error (.unknownOpcode op)
    | some (.nullary i) => .ok (i, rest)
    | some (.unary mk) =>
      match rest with
      | [] => .error (.missingOperand 1)
      | a :: rest => .ok (mk a, rest)
    | some (.binary mk) =>
      match rest with
      | [] => .error (.missingOperand 1)
      | [_] => .error (.missingOperand 2)
      | a :: b :: rest => .ok (mk a b, rest)

/-- The opcode byte of an instruction (R77). -/
def Instr.opcode : Instr → Byte
  | .hlt => 0x01#8
  | .ret => 0x11#8
  | .push _ => 0x45#8
  | .pop _ => 0x46#8
  | .call _ => 0x50#8
  | .jmp _ => 0x54#8
  | .jeq _ => 0x55#8
  | .jne _ => 0x56#8
  | .prn _ => 0x47#8
  | .pra _ => 0x48#8
  | .ldi _ _ => 0x82#8
  | .cmp _ _ => 0xA7#8
  | .add _ _ => 0xA0#8
  | .sub _ _ => 0xA1#8
  | .mul _ _ => 0xA2#8
  | .div _ _ => 0xA3#8
  | .mod _ _ => 0xA4#8
  | .or _ _ => 0xAA#8
  | .xor _ _ => 0xAB#8
  | .shl _ _ => 0xAC#8
  | .shr _ _ => 0xAD#8

/-- The operand bytes of an instruction, operand A first (R54, R73). -/
def Instr.operands : Instr → List Byte
  | .hlt | .ret => []
  | .push a | .pop a | .call a | .jmp a | .jeq a | .jne a | .prn a | .pra a => [a]
  | .ldi a b | .cmp a b | .add a b | .sub a b | .mul a b | .div a b | .mod a b
  | .or a b | .xor a b | .shl a b | .shr a b => [a, b]

/-- The bytes of an instruction, lowest address first (R54, R72). -/
def encode (i : Instr) : List Byte := i.opcode :: i.operands

/-- The length of an instruction in bytes: bits 7:6 of its opcode byte, plus one (R70). -/
def Instr.length (i : Instr) : Nat := operandCountField i.opcode + 1

/-- The bytes of an instruction given as one number, bit 0 the least significant bit of the first byte: the low `nbits` bits
of `w`, and zeros up to the longest instruction of three bytes (R54, R70). -/
def tableBytes (nbits w : Nat) : List Byte :=
  let v := w % 2 ^ nbits
  [BitVec.ofNat 8 v, BitVec.ofNat 8 (v / 2 ^ 8), BitVec.ofNat 8 (v / 2 ^ 16)]

/-- What the decoder reads from an instruction given as one number in the opcode table's bit numbering. -/
def decodeTableWord (nbits w : Nat) : Option Instr :=
  match decode (tableBytes nbits w) with
  | .ok (i, _) => some i
  | .error _ => none

end Sys2Proof
end

