-- ==== Sys2Proof/Config.lean ====
section
/-! DEFINITION. The fixed sizes and constants of CORE (R5, R6), and the two host parameters to which the spec gives no value
(R7, R180). -/

namespace Sys2Proof

/-- MEMSIZE: the number of memory cells (R5). -/
abbrev Config.memSize : Nat := 256

/-- SP_INDEX: the register used as stack pointer (R5, R22). -/
abbrev Config.spIndex : RegIdx := 7

/-- SP_RESET: the stack pointer at the first fetch (R6). -/
def Config.spReset : Byte := 0xF3#8

/-- LOAD_BASE: the address at which the loader places the first byte of the image (R6). -/
def Config.loadBase : Nat := 0

/-- One less than LOAD_ERROR_STATUS, the non-zero process status of a failed load, which the spec leaves open (R7, R180,
decision D23). Free: nothing in the model evaluates it (log entry 17). -/
opaque Config.loadErrorStatusLessOne : Nat

/-- One less than the non-zero process status of a core fault, which the spec leaves open (R180, decision D23). Free: nothing
in the model evaluates it (log entry 17). -/
opaque Config.faultStatusLessOne : Nat

end Sys2Proof
end

