-- ==== Sys2Proof/Machine/State.lean ====
section
/-! DEFINITION. The machine's state (R20 to R38), the fault record its latch holds, the events of the output trace, and the
state after reset (R36, R191). Plain data throughout. -/

namespace Sys2Proof.Machine

/-- The fault kinds of R161. The names are their identity (decision D7). -/
inductive FaultKind where
  /-- The byte at pc is not in the opcode table (R162). -/
  | unknownOpcode
  /-- The ALU is handed an operation it does not define. Raised by nothing: no byte reaches the ALU unless the table has it
  (R163). -/
  | unsupportedAluOperation
  /-- DIV or MOD with a zero divisor (R164). -/
  | arithmetic
  /-- An address outside 0..255 is formed (R165). -/
  | address
  /-- A register operand byte above 7 (R166). -/
  | registerIndex
  deriving DecidableEq, Repr

/-- A fault about to be entered: its kind and its information (R161), an address or a byte as an integer. -/
structure Trap where
  kind : FaultKind
  info : Int
  deriving DecidableEq, Repr

/-- What the fault latch holds (R32): the kind, the address of the faulting instruction's opcode byte, the information. -/
structure FaultRecord where
  kind : FaultKind
  fpc : PcWord
  info : Int
  deriving DecidableEq, Repr

/-- The instruction that emitted an event of the output trace (R34). -/
inductive OutKind where
  | prn
  | pra
  deriving DecidableEq, Repr

/-- An event of the output trace: its kind and the emitted byte (R34). -/
structure OutEvent where
  kind : OutKind
  value : Byte
  deriving DecidableEq, Repr

/-- Memory as address and byte pairs in one canonical form: addresses strictly rising and below 256, no entry equal to the
zero that an unlisted address reads as (R35, R36; log entry 5). -/
abbrev Memory := List Host.Cell

/-- All the state of CORE (R35 says there is no more). -/
structure State where
  /-- `x[0..7]` (R20); `x[7]` is the stack pointer (R22). -/
  regs : Vector Byte 8
  /-- `pc` (R24). -/
  pc : PcWord
  /-- `FL` (R28). -/
  fl : FlagWord
  /-- `RUN` (R31). -/
  running : Bool
  /-- `FAULT` (R32). -/
  fault : Option FaultRecord
  /-- `Mem` (R35). -/
  mem : Memory
  /-- `OUT`, oldest event first (R34). -/
  out : List OutEvent
  deriving DecidableEq, Repr

/-- Reasons to stop outside the spec's own account of a fault. There are none: every error the spec names is entered into the
fault latch, which is a next state (R169; log entries 1 and 19). Nobody raises one, so this is safe. -/
inductive Fault where
  deriving DecidableEq, Repr

/-- Reasons why an instruction has no meaning. -/
inductive Refusal where
  /-- An arm of `exec` still without a meaning. No arm raises it: all 21 instructions have their meaning. Safe. -/
  | notModelled (mnemonic : String)
  deriving DecidableEq, Repr

/-- The state at the first fetch (R36, R191) for the image of no bytes: `x[0..6] = 0`, `x[7] = 0xF3`, `pc = 0`, flags clear,
RUN true, no fault, every cell 0, no output. With an image: `State.boot`. -/
def State.reset : State where
  regs := #v[0#8, 0#8, 0#8, 0#8, 0#8, 0#8, 0#8, Config.spReset]
  pc := 0#9
  fl := 0#3
  running := true
  fault := none
  mem := []
  out := []

end Sys2Proof.Machine
end

