-- ==== Sys2Proof/Machine/Flags.lean ====
section
/-! DEFINITION. The condition flags: their places in FL (R28) and CMP's computation of all three (R130). No other
instruction computes a flag (R29). -/

namespace Sys2Proof.Machine

/-- `FL.E`, EQUAL: bit 0 (R28). -/
def flagE (f : FlagWord) : Bool := f.getLsbD 0

/-- `FL.G`, GREATER_THAN: bit 1 (R28). -/
def flagG (f : FlagWord) : Bool := f.getLsbD 1

/-- `FL.L`, LESS_THAN: bit 2 (R28). -/
def flagL (f : FlagWord) : Bool := f.getLsbD 2

/-- CMP's three flags, `0bLGE`, of the unsigned bytes A and B (R130). -/
def compareFlags (A B : Byte) : FlagWord :=
  if A = B then 0b001#3 else if B.toNat < A.toNat then 0b010#3 else 0b100#3

end Sys2Proof.Machine
end

