-- ==== Sys2Proof/Machine/Numerics.lean ====
section
/-! DEFINITION. The nine arithmetic, logic and shift functions of the ALU on unsigned bytes (R121 to R129), each computed
exactly on integers and narrowed by `trunc8` (R13, R131). The values that rest on the spec's own decisions (D9: rounding of
DIV and MOD; D10: shift counts) are in this one place, as `93_implementation_defined.md` U19 asks. -/

namespace Sys2Proof.Machine

/-- The residue modulo 256 in 0..255 of an exact integer (R13). -/
def trunc8 (v : Int) : Byte := BitVec.ofInt 8 v

/-- ADD (R121). -/
def aluAdd (A B : Byte) : Byte := trunc8 (A.toNat + B.toNat)

/-- SUB (R122): a negative difference wraps to its residue. -/
def aluSub (A B : Byte) : Byte := trunc8 (A.toNat - B.toNat)

/-- MUL (R123): the low byte of the product. -/
def aluMul (A B : Byte) : Byte := trunc8 (A.toNat * B.toNat)

/-- DIV by a divisor that is not zero (R124, D9): the floor of the unsigned quotient. -/
def aluDiv (A B : Byte) : Byte := trunc8 ((A.toNat / B.toNat : Nat) : Int)

/-- MOD by a divisor that is not zero (R125, D9): the unsigned remainder. -/
def aluMod (A B : Byte) : Byte := trunc8 ((A.toNat % B.toNat : Nat) : Int)

/-- OR (R126). -/
def aluOr (A B : Byte) : Byte := A ||| B

/-- XOR (R127). -/
def aluXor (A B : Byte) : Byte := A ^^^ B

/-- SHL (R128, D10): the whole byte B is the count. -/
def aluShl (A B : Byte) : Byte := trunc8 ((A.toNat * 2 ^ B.toNat : Nat) : Int)

/-- SHR (R129, D10): logical, the whole byte B is the count. -/
def aluShr (A B : Byte) : Byte := trunc8 ((A.toNat / 2 ^ B.toNat : Nat) : Int)

end Sys2Proof.Machine
end

