-- ==== Sys2Proof/Machine/Memory.lean ====
section
/-! DEFINITION. Memory as a canonical list of cells: reading and writing one cell, the canonical form, and the writing of
consecutive bytes. Which integer addresses may be accessed is decided in Machine/Ops.lean. -/

namespace Sys2Proof.Machine

/-- What an unlisted address reads as: 0 (R36, R68: "cells n..255 hold 0", the spec's decision D12; log entry 5). -/
def Memory.blank : Byte := 0#8

/-- The byte a cell holds (R51). -/
def Memory.read : Memory → Nat → Byte
  | [], _ => Memory.blank
  | (b, w) :: m, a => if a = b then w else Memory.read m a

/-- Put a byte in front of the cells above its address; the blank value is not listed. -/
def Memory.cons (a : Nat) (v : Byte) (m : Memory) : Memory :=
  if v = Memory.blank then m else (a, v) :: m

/-- Write one cell, no other cell changes (R52); keeps the canonical form. -/
def Memory.write (a : Nat) (v : Byte) : Memory → Memory
  | [] => Memory.cons a v []
  | (b, w) :: m =>
    if a < b then Memory.cons a v ((b, w) :: m)
    else if a = b then Memory.cons a v m
    else (b, w) :: Memory.write a v m

/-- The canonical form from an address on: strictly rising addresses below 256, no listed blank. -/
def Memory.wfFrom : Nat → Memory → Bool
  | _, [] => true
  | lo, (a, v) :: m => decide (lo ≤ a) && decide (a < Config.memSize) && decide (v ≠ Memory.blank) && Memory.wfFrom (a + 1) m

/-- The canonical form of a memory: R50's 256 cells, each listed at most once, in order, and only if it is not blank. -/
def Memory.wf (m : Memory) : Bool := Memory.wfFrom 0 m

/-- Write bytes at rising addresses from `a` on (R68); a byte that would lie above address 255 has no cell and is dropped. -/
def Memory.load (a : Nat) : List Byte → Memory → Memory
  | [], m => m
  | v :: vs, m => Memory.load (a + 1) vs (if a < Config.memSize then Memory.write a v m else m)

end Sys2Proof.Machine
end

