-- ==== Sys2Proof/Machine/Ops.lean ====
section
/-! DEFINITION. The named operations over State that every meaning is built from: registers, the checked address, the two
memory primitives, the program counter, the output port, and fault entry, the one shared operation by which an instruction
takes a fault. CORE has no return from a fault (R171), so none stands beside it. -/

namespace Sys2Proof.Machine

/-- What a meaning and a step answer. -/
abbrev Out := Host.Outcome State Fault Refusal

/-- Read a general register (R20). -/
def State.reg (s : State) (r : RegIdx) : Byte := s.regs[r]

/-- Write a general register; no register is hard-wired (R21). -/
def State.setReg (s : State) (r : RegIdx) (v : Byte) : State := { s with regs := s.regs.set r v }

/-- The stack pointer is register 7 (R22). -/
def State.sp (s : State) : Byte := s.reg Config.spIndex

/-- Write register 7 as the stack pointer (R22). -/
def State.setSp (s : State) (v : Byte) : State := s.setReg Config.spIndex v

/-- Overwrite all three flags (R29). -/
def State.setFlags (s : State) (f : FlagWord) : State := { s with fl := f }

/-- The byte a cell holds, for statements (R51). -/
def State.byteAt (s : State) (a : Nat) : Byte := s.mem.read a

/-- The one bounds policy for every address the core forms (R53, the spec's decision D2): computed on unbounded integers,
never wrapped, AddressError outside 0..255 with the offending integer as information (R165). -/
def checkAddr (a : Int) : Except Trap Byte :=
  if 0 ≤ a ∧ a ≤ 255 then .ok (BitVec.ofNat 8 a.toNat) else .error ⟨.address, a⟩

/-- `MemRead(addr, 1)` (R51). -/
def memRead (a : Int) (s : State) : Except Trap Byte :=
  match checkAddr a with
  | .ok c => .ok (s.mem.read c.toNat)
  | .error t => .error t

/-- `MemWrite(addr, 1, v)` (R52). -/
def memWrite (a : Int) (v : Byte) (s : State) : Except Trap State :=
  match checkAddr a with
  | .ok c => .ok { s with mem := s.mem.write c.toNat v }
  | .error t => .error t

/-- The dispatcher's advance past an instruction of `n` bytes, not wrapped at 256 (R97, R24). -/
def State.advance (s : State) (n : Nat) : State := { s with pc := s.pc + BitVec.ofNat 9 n }

/-- Load pc from a register or memory byte: a target is always 0..255 (R27). -/
def State.jumpTo (s : State) (t : Byte) : State := { s with pc := t.setWidth 9 }

/-- `Out(kind, v)`: append one event to the output trace (R34). -/
def State.emit (s : State) (k : OutKind) (v : Byte) : State := { s with out := s.out ++ [⟨k, v⟩] }

/-- Clear the running flag (R113). -/
def State.halt (s : State) : State := { s with running := false }

/-- FAULT ENTRY (R169): FAULT <- (kind, fpc, info), fpc the pc of the faulting instruction's opcode byte (R25); nothing else is
written. -/
def State.takeFault (s : State) (t : Trap) : State := { s with fault := some ⟨t.kind, s.pc, t.info⟩ }

/-- End a step: commit all its writes, or take the fault in the state the step began in (R98, R170). -/
def finish (s : State) : Except Trap State → Out
  | .ok t => .next t
  | .error t => .next (s.takeFault t)

end Sys2Proof.Machine
end

