-- ==== Sys2Proof/Machine/Operands.lean ====
section
/-! DEFINITION. The operand forms (R72 to R75): a register operand byte, its check (R95) and the byte that names a register.
The literal of LDI is its operand byte as it is (R75) and needs no operation. -/

namespace Sys2Proof.Machine

/-- A register operand: the byte is the index, not masked; RegisterIndexError with the byte as information when it is above 7
(R74, R95, R166, the spec's decision D5). -/
def regIndex (b : Byte) : Except Trap RegIdx :=
  if h : b.toNat < 8 then .ok ⟨b.toNat, h⟩ else .error ⟨.registerIndex, b.toNat⟩

/-- The operand byte that names a register (R73, R74). -/
def regByte (r : RegIdx) : Byte := BitVec.ofNat 8 r.val

end Sys2Proof.Machine
end

