-- ==== Sys2Proof/Machine/Alu.lean ====
section
/-! DEFINITION. The ten ALU instructions (R120 to R133). All are format RR: operand A is checked before operand B (R95), both
registers are read before the one destination is written (R120), and the dispatcher advances pc by 3 (R97). -/

namespace Sys2Proof.Machine

/-- The shared form of ADD, SUB, MUL, OR, XOR, SHL and SHR: `x[a] <- f(x[a], x[b])`, FL unchanged (R120). -/
def aluStore (f : Byte → Byte → Byte) (a b : Byte) (s : State) : Out :=
  finish s do
    let ra ← regIndex a
    let rb ← regIndex b
    pure ((s.setReg ra (f (s.reg ra) (s.reg rb))).advance 3)

/-- The shared form of DIV and MOD: ArithmeticError naming the instruction's address when the divisor register holds 0, before
the destination is written (R124, R125, R164, the spec's decision D11); otherwise as `aluStore`. -/
def aluDivide (f : Byte → Byte → Byte) (a b : Byte) (s : State) : Out :=
  finish s do
    let ra ← regIndex a
    let rb ← regIndex b
    if s.reg rb = 0#8 then .error ⟨.arithmetic, s.pc.toNat⟩
    else pure ((s.setReg ra (f (s.reg ra) (s.reg rb))).advance 3)

/-- ADD (R121). -/
def execAdd (a b : Byte) (s : State) : Out := aluStore aluAdd a b s

/-- SUB (R122). -/
def execSub (a b : Byte) (s : State) : Out := aluStore aluSub a b s

/-- MUL (R123). -/
def execMul (a b : Byte) (s : State) : Out := aluStore aluMul a b s

/-- DIV (R124). -/
def execDiv (a b : Byte) (s : State) : Out := aluDivide aluDiv a b s

/-- MOD (R125). -/
def execMod (a b : Byte) (s : State) : Out := aluDivide aluMod a b s

/-- OR (R126). -/
def execOr (a b : Byte) (s : State) : Out := aluStore aluOr a b s

/-- XOR (R127). -/
def execXor (a b : Byte) (s : State) : Out := aluStore aluXor a b s

/-- SHL (R128). -/
def execShl (a b : Byte) (s : State) : Out := aluStore aluShl a b s

/-- SHR (R129). -/
def execShr (a b : Byte) (s : State) : Out := aluStore aluShr a b s

/-- CMP (R130): all three flags are overwritten, no register is. -/
def execCmp (a b : Byte) (s : State) : Out :=
  finish s do
    let ra ← regIndex a
    let rb ← regIndex b
    pure ((s.setFlags (compareFlags (s.reg ra) (s.reg rb))).advance 3)

end Sys2Proof.Machine
end

