-- ==== Sys2Proof/Machine/Jumps.lean ====
section
/-! DEFINITION. JMP, JEQ and JNE (R150 to R155). The handler writes pc in every case, taken or not; a register operand above 7
faults whether or not the jump would be taken (R150). -/

namespace Sys2Proof.Machine

/-- Jump to the register's byte if `taken`, else fall through past the two bytes (R150). -/
def jumpIf (taken : Bool) (a : Byte) (s : State) : Out :=
  finish s do
    let r ← regIndex a
    pure (if taken then s.jumpTo (s.reg r) else s.advance 2)

/-- JMP (R151). -/
def execJmp (a : Byte) (s : State) : Out := jumpIf true a s

/-- JEQ (R152): taken if and only if FL.E is 1 (R154). -/
def execJeq (a : Byte) (s : State) : Out := jumpIf (flagE s.fl) a s

/-- JNE (R153): taken if and only if FL.E is 0 (R154). -/
def execJne (a : Byte) (s : State) : Out := jumpIf (!flagE s.fl) a s

end Sys2Proof.Machine
end

