-- ==== Sys2Proof/Machine/RegisterIo.lean ====
section
/-! DEFINITION. LDI, PRN, PRA and HLT (R110 to R113). Each meaning is the register-operand check of R95, the handler, and the
dispatcher's advance of R97. -/

namespace Sys2Proof.Machine

/-- The shared form of PRN and PRA: one event with the register's byte, then pc + 2 (R111, R112). -/
def emitRegister (k : OutKind) (a : Byte) (s : State) : Out :=
  finish s do
    let r ← regIndex a
    pure ((s.emit k (s.reg r)).advance 2)

/-- LDI (R110): `x[a] <- v`; operand B is a literal and is not checked. -/
def execLdi (a v : Byte) (s : State) : Out :=
  finish s do
    let r ← regIndex a
    pure ((s.setReg r v).advance 3)

/-- PRN (R111). -/
def execPrn (a : Byte) (s : State) : Out := emitRegister .prn a s

/-- PRA (R112). -/
def execPra (a : Byte) (s : State) : Out := emitRegister .pra a s

/-- HLT (R113): `RUN <- false`, and the dispatcher still advances pc by 1 (R97). -/
def execHlt (s : State) : Out := .next (s.halt.advance 1)

end Sys2Proof.Machine
end

