-- ==== Sys2Proof/Machine/Stack.lean ====
section
/-! DEFINITION. PUSH, POP, CALL and RET (R140 to R146). Each statement of the spec's pseudocode is one line here, in its
order, which matters when the operand is register 7 (the spec's decision D29). -/

namespace Sys2Proof.Machine

/-- PUSH (R141): decrement SP, then store the register, read after the decrement. -/
def execPush (a : Byte) (s : State) : Out :=
  finish s do
    let r ← regIndex a
    let sp1 ← checkAddr (s.sp.toNat - 1)
    let s1 := s.setSp sp1
    let s2 ← memWrite s1.sp.toNat (s1.reg r) s1
    pure (s2.advance 2)

/-- What register 7 holds once the popped byte is in its register: the popped byte itself for `POP R7` (R142). -/
def popBase (r : RegIdx) (v : Byte) (s : State) : Byte := if r = Config.spIndex then v else s.sp

/-- POP (R142): load the register from the top of the stack, then increment SP. -/
def execPop (a : Byte) (s : State) : Out :=
  finish s do
    let r ← regIndex a
    let v ← memRead s.sp.toNat s
    let sp1 ← checkAddr ((popBase r v s).toNat + 1)
    pure (((s.setReg r v).setSp sp1).advance 2)

/-- CALL (R143): the return address is checked before the decrement of SP (R168); the target is read after it. -/
def execCall (a : Byte) (s : State) : Out :=
  finish s do
    let r ← regIndex a
    let ret ← checkAddr (s.pc.toNat + 2)
    let sp1 ← checkAddr (s.sp.toNat - 1)
    let s1 := s.setSp sp1
    let s2 ← memWrite s1.sp.toNat ret s1
    pure (s2.jumpTo (s2.reg r))

/-- RET (R144): pc <- the byte at the top of the stack, then increment SP. -/
def execRet (s : State) : Out :=
  finish s do
    let t ← memRead s.sp.toNat s
    let sp1 ← checkAddr (s.sp.toNat + 1)
    pure ((s.jumpTo t).setSp sp1)

end Sys2Proof.Machine
end

