-- ==== Sys2Proof/Machine/Cycle.lean ====
section
/-! DEFINITION. The fetch-decode-execute cycle (R90 to R98): enabling, the fetch with its checks in the order of R168, and the
placing of an instruction's bytes where the next fetch reads them. -/

namespace Sys2Proof.Machine

/-- The core takes a step if and only if RUN is true and no fault is latched (R90). -/
def State.enabled (s : State) : Bool := s.running && s.fault.isNone

/-- Fetch and decode at pc. In order (R168): the opcode's address, the table lookup, operand A's address, operand B's address.
The bytes beyond the instruction's length are not accesses (R94, the spec's decision D3). -/
def fetch (s : State) : Except Trap Instr :=
  match memRead s.pc.toNat s with
  | .error t => .error t
  | .ok op =>
    match lookup op with
    | none => .error ⟨.unknownOpcode, op.toNat⟩
    | some (.nullary i) => .ok i
    | some (.unary mk) => do
      let a ← memRead (s.pc.toNat + 1) s
      pure (mk a)
    | some (.binary mk) => do
      let a ← memRead (s.pc.toNat + 1) s
      let b ← memRead (s.pc.toNat + 2) s
      pure (mk a b)

/-- One cycle: nothing changes when the core is not enabled (R90); a fault of the fetch is taken (R91 to R93, R169); otherwise
the one handler runs (R96). -/
def cycle (s : State) : Out :=
  if s.enabled then
    match fetch s with
    | .ok i => exec i s
    | .error t => .next (s.takeFault t)
  else .next s

/-- Store bytes from pc on, where the fetch reads them (R54). -/
def State.placeAtPc (s : State) (bs : List Byte) : State := { s with mem := s.mem.load s.pc.toNat bs }

end Sys2Proof.Machine
end

