-- ==== Sys2Proof/Machine/Step.lean ====
section
/-! DEFINITION. The step function (40_cycle.md) and the placing of a table word for its next fetch. -/

namespace Sys2Proof.Machine

/-- One step of the core (R90 to R98). -/
def step (s : State) : Host.Outcome State Fault Refusal := cycle s

/-- `s` with an instruction, given as one number in the opcode table's bit numbering, stored where the next step fetches. It
stands for the loader (R68; log entry 6). -/
def State.withFetchWord (s : State) (nbits w : Nat) : State := s.placeAtPc (tableBytes nbits w)

end Sys2Proof.Machine
end

