-- ==== Sys2Proof/Machine/HostView.lean ====
section
/-! DEFINITION. The boundary of the core with its loader and its host, as far as the spec gives it: the image in memory before
the first step (R68, R191, R192), the rendering of the output trace (R34), the condition of the core (R38), the end of a run
(R201) and the host's exit status (R180). Read-only views of State, but for the loader. -/

namespace Sys2Proof.Machine

/-- The loader's contract (R68): the image's bytes at rising addresses from 0. The spec says nothing of an image of more than
256 bytes (decision D22), so there is no state for one. -/
def State.loadImage (image : List Byte) (s : State) : Option State :=
  if image.length ≤ Config.memSize then some { s with mem := s.mem.load Config.loadBase image } else none

/-- The state at the first fetch with an image: construction, load, stack pointer set, none of whose order the core can see
(R191, R192). -/
def State.boot (image : List Byte) : Option State := State.reset.loadImage image

/-- The three conditions of the core (R38). -/
inductive Condition where
  | running
  | halted
  | faulted
  deriving DecidableEq, Repr

/-- The condition of a state (R38). A run ended normally only if no fault is latched (R201), so a latched fault is looked at
first; the two never meet in a reachable state (R37; log entry 21). -/
def State.condition (s : State) : Condition :=
  if s.fault.isSome then .faulted else if s.running then .running else .halted

/-- What the host prints for one event (R34, the spec's decision D13): PRN as decimal digits and a line feed, PRA as the one
character with that code point. -/
def OutEvent.render (e : OutEvent) : String :=
  match e.kind with
  | .prn => toString e.value.toNat ++ "\n"
  | .pra => String.singleton (Char.ofNat e.value.toNat)

/-- What the host prints for a whole trace (R34). -/
def renderTrace (es : List OutEvent) : String := String.join (es.map OutEvent.render)

/-- The host's exit status (R180): 0 after HALTED, a non-zero status that the spec leaves open after FAULTED, none yet while
RUNNING. -/
def State.exitStatus (s : State) : Option Nat :=
  match s.condition with
  | .running => none
  | .halted => some 0
  | .faulted => some (Config.faultStatusLessOne + 1)

/-- The host's exit status when the loader fails, non-zero and otherwise open (R167, R180). -/
def loadErrorStatus : Nat := Config.loadErrorStatusLessOne + 1

/-- The numeric codes of the fault kinds (R161, the spec's decision D7). -/
def FaultKind.code : FaultKind → Nat
  | .unknownOpcode => 1
  | .unsupportedAluOperation => 2
  | .arithmetic => 3
  | .address => 4
  | .registerIndex => 5

end Sys2Proof.Machine
end

