-- ==== Sys2Proof/WellFormed.lean ====
section
/-! DEFINITION. The one constraint inside a legal instruction (R83): a register operand byte is 0..7 (R74). -/

namespace Sys2Proof

/-- A byte that names a register: 0..7 (R74). -/
def legalRegByte (b : Byte) : Bool := b.toNat < 8

/-- Every register operand names a register. The literal of LDI has no illegal value (R83). -/
def WellFormed (i : Instr) : Bool := i.regOperands.all legalRegByte

end Sys2Proof
end

