-- ==== Sys2Proof/Safety.lean ====
section
/-! DEFINITION. What a legal state is (R37), what a safe run is, and the vocabulary in which statements say what an
instruction leaves alone. -/

namespace Sys2Proof.Machine

/-- The legal values of FL: clear until the first CMP, then exactly one bit (R30). -/
def legalFlags (f : FlagWord) : Bool := f = 0b000#3 || f = 0b001#3 || f = 0b010#3 || f = 0b100#3

/-- What a latched record can hold (R161, R165, R166, R169), in the state it was latched in: the pc of the faulting
instruction, and the information its kind records. -/
def FaultRecord.Legal (r : FaultRecord) (s : State) : Prop :=
  r.fpc = s.pc ∧
  match r.kind with
  | .unknownOpcode => ∃ op : Byte, lookup op = none ∧ r.info = op.toNat
  | .unsupportedAluOperation => False
  | .arithmetic => r.info = s.pc.toNat
  | .address => r.info = -1 ∨ r.info = 256
  | .registerIndex => 8 ≤ r.info ∧ r.info ≤ 255

/-- The invariants of R37, for every reachable state. That a register and a cell hold a byte is their type. -/
structure State.Inv (s : State) : Prop where
  pc_in_range : s.pc.toNat ≤ 256
  flags_legal : legalFlags s.fl = true
  mem_wf : s.mem.wf = true
  halted_has_no_fault : s.running = false → s.fault = none
  fault_legal : ∀ r, s.fault = some r → r.Legal s

/-- A run is safe so far if no fault is latched (R38). -/
def State.Safe (s : State) : Prop := s.fault = none

/-- A run has ended normally (R201). -/
def State.EndedNormally (s : State) : Prop := s.running = false ∧ s.fault = none

/-- What a next state leaves as it was: every register but `written`, and every byte of memory outside `stored`. -/
structure Keeps (s t : State) (written : List RegIdx) (stored : List Nat) : Prop where
  regs : ∀ r, r ∉ written → t.reg r = s.reg r
  bytes : ∀ a, a ∉ stored → t.byteAt a = s.byteAt a

/-- What a next state leaves as it was: the flags, the running flag, the fault latch and the output trace. -/
def SameControl (s t : State) : Prop :=
  t.fl = s.fl ∧ t.running = s.running ∧ t.fault = s.fault ∧ t.out = s.out

/-- The outcome of R169 (decision D6, log entry 1): the latch holds the kind, the pc of the faulting instruction and the
information, and nothing else is written. -/
def FaultNext (s : State) (k : FaultKind) (info : Int) : Out :=
  .next { s with fault := some ⟨k, s.pc, info⟩ }

/-- The same change made to the next state of an outcome. -/
def onNext (f : State → State) : Out → Out
  | .next t => .next (f t)
  | .fault r => .fault r
  | .refused r => .refused r

/-- An instruction with this opcode byte that starts above `last` lacks an operand byte: AddressError(256) (R93, R165;
decisions D2, D6, log entries 12, 1). -/
def TruncatedFaults (op : Byte) (last : Nat) : Prop :=
  ∀ s : State, s.enabled = true → last < s.pc.toNat → s.pc.toNat ≤ 255 → s.byteAt s.pc.toNat = op →
    step s = FaultNext s .address 256

/-- A format-R row of the opcode table: its bytes, and the two faults common to all such rows (R72, R93, R95; decisions D2,
D5, D6, log entries 12, 13, 1). -/
structure RegFormat (op : Byte) (mk : Byte → Instr) : Prop where
  decodes : ∀ a rest, decode (op :: a :: rest) = .ok (mk a, rest)
  truncated : TruncatedFaults op 254
  index : ∀ (a : Byte) (s : State), 7 < a.toNat → exec (mk a) s = FaultNext s .registerIndex a.toNat

/-- A format-RR row of the opcode table: its bytes, and the faults common to all such rows, operand A before operand B (R72,
R93, R95; decisions D2, D4, D5, D6, log entries 12, 23, 13, 1). -/
structure RegRegFormat (op : Byte) (mk : Byte → Byte → Instr) : Prop where
  decodes : ∀ a b rest, decode (op :: a :: b :: rest) = .ok (mk a b, rest)
  truncated : TruncatedFaults op 253
  indexA : ∀ (a b : Byte) (s : State), 7 < a.toNat → exec (mk a b) s = FaultNext s .registerIndex a.toNat
  indexB : ∀ (a b : Byte) (s : State), a.toNat ≤ 7 → 7 < b.toNat → exec (mk a b) s = FaultNext s .registerIndex b.toNat

/-- An ALU instruction that stores `c` with `Result A B c` into its first register, for the bytes A and B its two registers
held before, and changes nothing else but pc, which goes past its three bytes (R120). -/
def AluStores (mk : Byte → Byte → Instr) (Result : Byte → Byte → Byte → Prop) : Prop :=
  ∀ (a b : RegIdx) (s : State), ∃ t, exec (mk (regByte a) (regByte b)) s = .next t ∧
    Result (s.reg a) (s.reg b) (t.reg a) ∧ Keeps s t [a] [] ∧ SameControl s t ∧ t.pc = s.pc + 3#9

/-- DIV and MOD: as `AluStores` for a divisor register that does not hold 0, and ArithmeticError naming the instruction's
address when it does (R124, R125, R164). -/
def AluDivides (mk : Byte → Byte → Instr) (Result : Byte → Byte → Byte → Prop) : Prop :=
  (∀ (a b : RegIdx) (s : State), s.reg b ≠ 0#8 → ∃ t, exec (mk (regByte a) (regByte b)) s = .next t ∧
    Result (s.reg a) (s.reg b) (t.reg a) ∧ Keeps s t [a] [] ∧ SameControl s t ∧ t.pc = s.pc + 3#9) ∧
  ∀ (a b : RegIdx) (s : State), s.reg b = 0#8 →
    exec (mk (regByte a) (regByte b)) s = FaultNext s .arithmetic s.pc.toNat

/-- The two instructions that write memory (R59). -/
def storesToStack : Instr → Bool
  | .push _ | .call _ => true
  | .hlt | .ret | .pop _ | .jmp _ | .jeq _ | .jne _ | .prn _ | .pra _ | .ldi _ _ | .cmp _ _ | .add _ _ | .sub _ _
  | .mul _ _ | .div _ _ | .mod _ _ | .or _ _ | .xor _ _ | .shl _ _ | .shr _ _ => false

/-- The 21 opcode values of R77. -/
def definedOpcodes : List Byte :=
  [1#8, 17#8, 69#8, 70#8, 80#8, 84#8, 85#8, 86#8, 71#8, 72#8, 130#8, 167#8, 160#8, 161#8, 162#8, 163#8, 164#8, 170#8,
    171#8, 172#8, 173#8]

/-- The bytes of memory from pc to the last cell. -/
def State.bytesFromPc (s : State) : List Byte :=
  (List.range (Config.memSize - s.pc.toNat)).map fun k => s.byteAt (s.pc.toNat + k)

end Sys2Proof.Machine
end

