-- ==== Sys2Proof/Certificates/Slice0/Obligations.lean ====
section
/-! DEFINITION. The statements for the provers. Each docstring names the rules of spec/ it formalises; where a clause rests on
a decision the spec marks as its own (`92_eei_decisions.md` D<n>) or on a log entry of the model, it says so. A statement
about exec includes the register-operand check and the advance of pc (log entry 4); pc is nine bits, and `s.pc + 3#9` does not
wrap for any pc up to 256. -/

open Sys2Proof Sys2Proof.Machine

/-! ## Encoding -/

/-- Words written out bit by bit from R72 and R77 decode to the instruction they stand for, one or more of each class. -/
def Obligations.SpelledOutWordsDecode : Prop :=
  decode [0b00000001#8] = .ok (.hlt, []) ∧
  decode [0b00010001#8] = .ok (.ret, []) ∧
  decode [0b01000101#8, 0b00000001#8] = .ok (.push 1#8, []) ∧
  decode [0b01010000#8, 0b00000001#8] = .ok (.call 1#8, []) ∧
  decode [0b01010101#8, 0b00000100#8] = .ok (.jeq 4#8, []) ∧
  decode [0b01000111#8, 0b00000000#8] = .ok (.prn 0#8, []) ∧
  decode [0b10000010#8, 0b00000000#8, 0b00001000#8] = .ok (.ldi 0#8 8#8, []) ∧
  decode [0b10101101#8, 0b00000010#8, 0b00000111#8] = .ok (.shr 2#8 7#8, []) ∧
  decode [0b00000000#8, 0b00000000#8, 0b00000000#8] = .error (.unknownOpcode 0#8) ∧
  decode [0b11000000#8, 0b00000000#8, 0b00000000#8] = .error (.unknownOpcode 0xC0#8)

/-- Decoding and encoding are inverse in both directions: a byte list decodes to an instruction and a rest exactly when it is
that instruction's encoding followed by that rest, for every operand byte (R70 to R77). -/
def Obligations.DecodeExactlyInvertsEncode : Prop :=
  ∀ (bs : List Byte) (i : Instr) (rest : List Byte), decode bs = .ok (i, rest) ↔ bs = encode i ++ rest

/-- The table agrees with the field rule (R78): of every defined byte, bits 7:6 are the number of operand bytes, never 3
(R81), and bit 4 is set exactly for the five instructions that write pc themselves (R71). -/
def Obligations.OpcodeFieldsAgreeWithTable : Prop :=
  (∀ op f, lookup op = some f → operandCountField op = f.operandCount ∧ operandCountField op ≠ 3) ∧
  ∀ i : Instr, setsPcField i.opcode = true ↔
    i = .ret ∨ (∃ a, i = .call a) ∨ (∃ a, i = .jmp a) ∨ (∃ a, i = .jeq a) ∨ ∃ a, i = .jne a

/-! ## The cycle -/

/-- When the core is enabled and the bytes at pc decode to an instruction, a step is exec of it; the step adds nothing around
exec (R91 to R97; log entry 4). -/
def Obligations.StepRunsTheDecodedInstruction : Prop :=
  ∀ (s : State) (i : Instr) (rest : List Byte), s.enabled = true → decode s.bytesFromPc = .ok (i, rest) → step s = exec i s

/-- An instruction stored at pc where it fits is fetched and executed: encode, memory, fetch and decode agree. -/
def Obligations.PlacedInstructionIsExecuted : Prop :=
  ∀ (s : State) (i : Instr), s.enabled = true → s.mem.wf = true → s.pc.toNat + (encode i).length ≤ 256 →
    step (s.placeAtPc (encode i)) = exec i (s.placeAtPc (encode i))

/-- R90 (decision D6): a core that is halted or faulted never changes again, however many steps it is given. That 'no step' is
a next state without change is the model's reading (log entry 2). -/
def Obligations.DisabledCoreNeverChanges : Prop :=
  ∀ (s : State) (n : Nat), s.running = false ∨ s.fault ≠ none → Host.Core.run Sys2Proof.core n s = .next s

/-- R202: every step of every state completes, with no stop of the model (faults are next states, log entries 1 and 19; 'no
step' is one without change, log entry 2). -/
def Obligations.EveryStepCompletes : Prop :=
  ∀ s : State, ∃ t, step s = .next t

/-- R91 (decisions D1, D6; log entries 3, 1): a fetch past the last cell raises AddressError with the pc as information. -/
def Obligations.FetchPastLastCellFaults : Prop :=
  ∀ s : State, s.enabled = true → 255 < s.pc.toNat → step s = FaultNext s .address s.pc.toNat

/-- R162: each of the 235 bytes outside the table, at any address and whatever stands after it, raises UnknownOpcodeError with
the byte; pc is not advanced, nothing else is written, and the run is over: no further step changes or emits anything. The
next state that differs in the latch only is decision D6 (log entry 1); that further steps answer that same state is log entry
2. -/
def Obligations.UndefinedOpcodeIsFatal : Prop :=
  (∀ s : State, s.enabled = true → s.pc.toNat ≤ 255 → s.byteAt s.pc.toNat ∉ definedOpcodes →
    step s = FaultNext s .unknownOpcode (s.byteAt s.pc.toNat).toNat ∧
    ∀ n t, step s = .next t → Host.Core.run Sys2Proof.core n t = .next t) ∧
  definedOpcodes.Nodup ∧ definedOpcodes.length = 256 - 235

/-- R95 and R168 (decisions D4, D5, D6; log entries 23, 13, 1): the first register operand above 7 faults, before anything the
handler would do: before the zero divisor, the stack bounds, the return address and the jump condition. -/
def Obligations.IllegalRegisterFaultsFirst : Prop :=
  ∀ (i : Instr) (b : Byte) (s : State), i.regOperands.find? (fun c => !legalRegByte c) = some b →
    exec i s = FaultNext s .registerIndex b.toNat

/-- R98, R169, R170 (decision D6, log entry 1): a step that changes the latch began with an enabled core and an empty latch,
records the pc of the faulting instruction, and changes nothing else. -/
def Obligations.FaultsArePrecise : Prop :=
  ∀ s t : State, step s = .next t → t.fault ≠ s.fault →
    s.enabled = true ∧ ∃ r, r.fpc = s.pc ∧ t = { s with fault := some r }

/-- R163 (decision D26, log entry 18): no step raises UnsupportedALUOperationError. -/
def Obligations.UnsupportedAluOperationIsUnreachable : Prop :=
  ∀ (s t : State) (r : FaultRecord), step s = .next t → t.fault = some r → r.kind = .unsupportedAluOperation → s.fault = some r

/-- R97 and R26: after an instruction whose bit 4 is clear and that did not fault, pc is its old value plus the length, as
integers and not wrapped; after any step from an address, pc is at most 256 (R24, decision D1, log entry 3). -/
def Obligations.PcAdvancesByLength : Prop :=
  (∀ (s t : State) (i : Instr), s.enabled = true → fetch s = .ok i → setsPcField i.opcode = false → exec i s = .next t →
    t.fault = none → t.pc.toNat = s.pc.toNat + i.length) ∧
  ∀ s t : State, s.pc.toNat ≤ 256 → step s = .next t → t.pc.toNat ≤ 256

/-! ## Reset and the invariant -/

/-- R191: every value of the reset state, for every image of at most 256 bytes. The latch, the fill and the trace are
decisions D6, D12 and D13 (log entries 1, 5, 16). -/
def Obligations.ResetValues : Prop :=
  ∀ image : List Byte, image.length ≤ 256 → ∃ s, State.boot image = some s ∧
    s.reg 0 = 0#8 ∧ s.reg 1 = 0#8 ∧ s.reg 2 = 0#8 ∧ s.reg 3 = 0#8 ∧ s.reg 4 = 0#8 ∧ s.reg 5 = 0#8 ∧ s.reg 6 = 0#8 ∧
    s.reg 7 = 0xF3#8 ∧ s.pc = 0#9 ∧ s.fl = 0b000#3 ∧ s.running = true ∧ s.fault = none ∧ s.out = [] ∧
    (∀ (a : Nat) (h : a < image.length), s.byteAt a = image[a]) ∧
    ∀ a, image.length ≤ a → a < 256 → s.byteAt a = 0#8

/-- The reset state, with any image that fits, meets the invariant (R36, R37). -/
def Obligations.ResetMeetsInvariant : Prop :=
  State.reset.Inv ∧ ∀ (image : List Byte) (s : State), State.boot image = some s → s.Inv

/-- R37: every step keeps the invariant: pc in 0..256, FL clear or one bit, memory canonical, no fault latched in a halted
core, and a latched record that R161 and R165 allow. The invariant includes decisions D1, D2, D5, D6 (log entries 3, 12, 13,
1), the information recorded (log entry 9) and the model's canonical form of memory. -/
def Obligations.StepKeepsInvariant : Prop :=
  ∀ s t : State, s.Inv → step s = .next t → t.Inv

/-! ## Memory -/

/-- R51: reading at any integer address. -/
def Obligations.MemReadRule : Prop :=
  ∀ (a : Int) (s : State),
    ((a < 0 ∨ a > 255) → memRead a s = .error ⟨.address, a⟩) ∧
    (0 ≤ a → a ≤ 255 → memRead a s = .ok (s.byteAt a.toNat))

/-- R52: writing at any integer address, in a canonical memory; no other cell and nothing else of the state changes. -/
def Obligations.MemWriteRule : Prop :=
  ∀ (a : Int) (v : Byte) (s : State), s.mem.wf = true →
    ((a < 0 ∨ a > 255) → memWrite a v s = .error ⟨.address, a⟩) ∧
    (0 ≤ a → a ≤ 255 → ∃ t, memWrite a v s = .ok t ∧ t.byteAt a.toNat = v ∧
      (∀ i, i ≠ a.toNat → t.byteAt i = s.byteAt i) ∧ t = { s with mem := t.mem } ∧ t.mem.wf = true)

/-- Two canonical memories that hold the same byte in each of the 256 cells are the same data (R35, R50). -/
def Obligations.EqualCellsAreEqualMemories : Prop :=
  ∀ m m' : Memory, m.wf = true → m'.wf = true → (∀ a, a < 256 → m.read a = m'.read a) → m = m'

/-- R59: a byte of memory changes only by PUSH or CALL, and only the byte just below the old stack pointer. -/
def Obligations.OnlyPushAndCallWriteMemory : Prop :=
  ∀ (i : Instr) (s t : State) (a : Nat), s.mem.wf = true → exec i s = .next t → t.byteAt a ≠ s.byteAt a →
    storesToStack i = true ∧ a + 1 = s.sp.toNat

/-- R66, R199: the byte that PUSH stores over the next instruction's opcode is the opcode the next step decodes: shown by what
that step does for a byte that is no instruction, and for HLT's. The latch-only next state is decision D6 (log entry 1). -/
def Obligations.PushedByteIsTheNextOpcode : Prop :=
  ∀ (r : RegIdx) (s : State), r ≠ 7 → s.enabled = true → s.mem.wf = true → s.sp.toNat = s.pc.toNat + 3 →
    ∃ t, exec (.push (regByte r)) s = .next t ∧ t.pc.toNat = s.pc.toNat + 2 ∧ t.byteAt t.pc.toNat = s.reg r ∧
      (s.reg r ∉ definedOpcodes → step t = FaultNext t .unknownOpcode (s.reg r).toNat) ∧
      (s.reg r = 0x01#8 → step t = exec .hlt t)

/-! ## Flags, running flag, output -/

/-- R29: only CMP changes FL; CMP's flags do not depend on the old ones; JEQ and JNE read E and nothing else of FL; every
other instruction reads no flag. -/
def Obligations.FlagsWrittenByCmpReadByJumps : Prop :=
  (∀ (i : Instr) (s t : State), exec i s = .next t → t.fl ≠ s.fl → ∃ a b, i = .cmp a b) ∧
  (∀ (a b : RegIdx) (s : State) (f : FlagWord),
    exec (.cmp (regByte a) (regByte b)) { s with fl := f } = exec (.cmp (regByte a) (regByte b)) s) ∧
  (∀ (a : Byte) (s : State) (f : FlagWord), flagE f = flagE s.fl →
    exec (.jeq a) { s with fl := f } = onNext (fun t => { t with fl := f }) (exec (.jeq a) s) ∧
    exec (.jne a) { s with fl := f } = onNext (fun t => { t with fl := f }) (exec (.jne a) s)) ∧
  ∀ (i : Instr) (s : State) (f : FlagWord), (∀ a b, i ≠ .cmp a b) → (∀ a, i ≠ .jeq a) → (∀ a, i ≠ .jne a) →
    exec i { s with fl := f } = onNext (fun t => { t with fl := f }) (exec i s)

/-- R31: RUN is true at construction, cleared by HLT only, read by the dispatcher only (before the fetch) and by no
instruction, and once false it stays false. That a step with RUN false answers the same state is R90 (decision D6) and log
entry 2. -/
def Obligations.RunningFlagRule : Prop :=
  State.reset.running = true ∧
  (∀ (i : Instr) (s t : State), exec i s = .next t → t.running ≠ s.running → i = .hlt ∧ t.running = false) ∧
  (∀ (i : Instr) (s : State) (b : Bool), i ≠ .hlt →
    exec i { s with running := b } = onNext (fun t => { t with running := b }) (exec i s)) ∧
  (∀ (s : State) (b : Bool), exec .hlt { s with running := b } = exec .hlt s) ∧
  ∀ s : State, s.running = false → step s = .next s

/-- R34 (decision D13, log entry 16): a step leaves the output trace as it was or appends one event, the named register's
byte, by the PRN or PRA it fetched; the core never reads the trace. -/
def Obligations.OutputOnlyGrows : Prop :=
  (∀ s t : State, step s = .next t → t.out = s.out ∨
    (∃ r, fetch s = .ok (.prn (regByte r)) ∧ t.out = s.out ++ [⟨.prn, s.reg r⟩]) ∨
    ∃ r, fetch s = .ok (.pra (regByte r)) ∧ t.out = s.out ++ [⟨.pra, s.reg r⟩]) ∧
  ∀ (s : State) (es : List OutEvent),
    step { s with out := es ++ s.out } = onNext (fun t => { t with out := es ++ t.out }) (step s)

/-! ## LDI, PRN, PRA, HLT -/

/-- R110. The common faults: D2, D5, D6 (log entries 12, 13, 1). -/
def Obligations.LdiLoadsTheLiteral : Prop :=
  (∀ a v rest, decode (0x82#8 :: a :: v :: rest) = .ok (.ldi a v, rest)) ∧
  TruncatedFaults 0x82#8 253 ∧
  (∀ (a v : Byte) (s : State), 7 < a.toNat → exec (.ldi a v) s = FaultNext s .registerIndex a.toNat) ∧
  ∀ (r : RegIdx) (v : Byte) (s : State), ∃ t, exec (.ldi (regByte r) v) s = .next t ∧
    t.reg r = v ∧ Keeps s t [r] [] ∧ SameControl s t ∧ t.pc = s.pc + 3#9

/-- R111. The trace and its rendering: D13 (log entry 16). The common faults: D2, D5, D6 (log entries 12, 13, 1). -/
def Obligations.PrnEmitsTheNumber : Prop :=
  RegFormat 0x47#8 .prn ∧
  (∀ (r : RegIdx) (s : State), exec (.prn (regByte r)) s =
    .next { s with out := s.out ++ [⟨.prn, s.reg r⟩], pc := s.pc + 2#9 }) ∧
  ∀ v : Byte, OutEvent.render ⟨.prn, v⟩ = Nat.repr v.toNat ++ "\n"

/-- R112. The trace and its rendering: D13 (log entry 16). The common faults: D2, D5, D6 (log entries 12, 13, 1). -/
def Obligations.PraEmitsTheCharacter : Prop :=
  RegFormat 0x48#8 .pra ∧
  (∀ (r : RegIdx) (s : State), exec (.pra (regByte r)) s =
    .next { s with out := s.out ++ [⟨.pra, s.reg r⟩], pc := s.pc + 2#9 }) ∧
  ∀ v : Byte, (OutEvent.render ⟨.pra, v⟩).toList.map Char.toNat = [v.toNat]

/-- R113: HLT clears RUN and still advances pc (decision D24, log entry 27); the core then takes no further step, which is a
next state without change (R90, decision D6, log entry 2); HLT may stand at address 255 and leaves pc 256 (decisions D1, D3;
log entries 3, 15). -/
def Obligations.HltClearsTheRunningFlag : Prop :=
  (∀ rest, decode (0x01#8 :: rest) = .ok (.hlt, rest)) ∧
  (∀ s : State, exec .hlt s = .next { s with running := false, pc := s.pc + 1#9 }) ∧
  (∀ (s t : State) (n : Nat), exec .hlt s = .next t → Host.Core.run Sys2Proof.core n t = .next t) ∧
  ∀ s : State, s.enabled = true → s.pc.toNat ≤ 255 → s.byteAt s.pc.toNat = 0x01#8 →
    ∃ t, step s = .next t ∧ t.running = false ∧ t.fault = none ∧ t.pc.toNat = s.pc.toNat + 1

/-! ## ALU -/

/-- R121. The common faults: D2, D5, D6 (log entries 12, 13, 1); their order: D4 (log entry 23). -/
def Obligations.AddStoresTheSum : Prop :=
  RegRegFormat 0xA0#8 .add ∧ AluStores .add fun A B c => c.toNat = (A.toNat + B.toNat) % 256

/-- R122. The common faults: D2, D5, D6 (log entries 12, 13, 1); their order: D4 (log entry 23). -/
def Obligations.SubStoresTheDifference : Prop :=
  RegRegFormat 0xA1#8 .sub ∧ AluStores .sub fun A B c => (c.toNat : Int) = ((A.toNat : Int) - B.toNat) % 256

/-- R123. The common faults: D2, D5, D6 (log entries 12, 13, 1); their order: D4 (log entry 23). -/
def Obligations.MulStoresTheLowByte : Prop :=
  RegRegFormat 0xA2#8 .mul ∧ AluStores .mul fun A B c => c.toNat = A.toNat * B.toNat % 256

/-- R124. The rounding: decision D9 (log entry 10); the zero divisor: D11 (log entry 24). The common faults: D2, D5, D6 (log
entries 12, 13, 1); their order: D4 (log entry 23). -/
def Obligations.DivStoresTheQuotient : Prop :=
  RegRegFormat 0xA3#8 .div ∧ AluDivides .div fun A B c => c.toNat = A.toNat / B.toNat

/-- R125. The remainder: decision D9 (log entry 10); the zero divisor: D11 (log entry 24). The common faults: D2, D5, D6 (log
entries 12, 13, 1); their order: D4 (log entry 23). -/
def Obligations.ModStoresTheRemainder : Prop :=
  RegRegFormat 0xA4#8 .mod ∧ AluDivides .mod fun A B c => c.toNat = A.toNat % B.toNat

/-- R126. The common faults: D2, D5, D6 (log entries 12, 13, 1); their order: D4 (log entry 23). -/
def Obligations.OrStoresTheDisjunction : Prop :=
  RegRegFormat 0xAA#8 .or ∧
  AluStores .or fun A B c => ∀ i, i < 8 → c.getLsbD i = (A.getLsbD i || B.getLsbD i)

/-- R127. The common faults: D2, D5, D6 (log entries 12, 13, 1); their order: D4 (log entry 23). -/
def Obligations.XorStoresTheExclusiveOr : Prop :=
  RegRegFormat 0xAB#8 .xor ∧
  AluStores .xor fun A B c => ∀ i, i < 8 → c.getLsbD i = (A.getLsbD i != B.getLsbD i)

/-- R128: the low eight bits of the shifted value; 0 for a count of 8 or more (the whole byte as count: decision D10, log
entry 11). The common faults: D2, D5, D6 (log entries 12, 13, 1); their order: D4 (log entry 23). -/
def Obligations.ShlShiftsByTheWholeCount : Prop :=
  RegRegFormat 0xAC#8 .shl ∧
  AluStores .shl fun A B c => c.toNat = A.toNat * 2 ^ B.toNat % 256 ∧ (8 ≤ B.toNat → c = 0#8)

/-- R129: logical, zeros enter at bit 7; 0 for a count of 8 or more (the whole byte as count: decision D10, log entry 11). The
common faults: D2, D5, D6 (log entries 12, 13, 1); their order: D4 (log entry 23). -/
def Obligations.ShrShiftsLogically : Prop :=
  RegRegFormat 0xAD#8 .shr ∧
  AluStores .shr fun A B c => c.toNat = A.toNat / 2 ^ B.toNat ∧ (8 ≤ B.toNat → c = 0#8)

/-- R130: exactly one flag, no register (the unsigned comparison: decision D28, log entry 25; the bit positions: D8, log entry
8). The common faults: D2, D5, D6 (log entries 12, 13, 1); their order: D4 (log entry 23). -/
def Obligations.CmpSetsExactlyOneFlag : Prop :=
  RegRegFormat 0xA7#8 .cmp ∧
  ∀ (a b : RegIdx) (s : State), ∃ t, exec (.cmp (regByte a) (regByte b)) s = .next t ∧
    (flagE t.fl = true ↔ (s.reg a).toNat = (s.reg b).toNat) ∧
    (flagG t.fl = true ↔ (s.reg a).toNat > (s.reg b).toNat) ∧
    (flagL t.fl = true ↔ (s.reg a).toNat < (s.reg b).toNat) ∧
    (t.fl = 0b001#3 ∨ t.fl = 0b010#3 ∨ t.fl = 0b100#3) ∧
    Keeps s t [] [] ∧ t.running = s.running ∧ t.fault = s.fault ∧ t.out = s.out ∧ t.pc = s.pc + 3#9

/-- R131 (decision D9, log entry 10): DIV and MOD of the same operands give the quotient and remainder of one division. -/
def Obligations.DivAndModAreOneDivision : Prop :=
  ∀ (a b : RegIdx) (s : State), s.reg b ≠ 0#8 → ∃ t u,
    exec (.div (regByte a) (regByte b)) s = .next t ∧ exec (.mod (regByte a) (regByte b)) s = .next u ∧
    (s.reg a).toNat = (t.reg a).toNat * (s.reg b).toNat + (u.reg a).toNat ∧ (u.reg a).toNat < (s.reg b).toNat

/-- R132: one register as both operands. Rounding, counts and the zero divisor: decisions D9, D10, D11 (log entries 10, 11,
24); the latch-only next state: D6 (log entry 1). -/
def Obligations.SameRegisterOperands : Prop :=
  ∀ (a : RegIdx) (s : State),
    (∃ t, exec (.add (regByte a) (regByte a)) s = .next t ∧ (t.reg a).toNat = 2 * (s.reg a).toNat % 256) ∧
    (∃ t, exec (.sub (regByte a) (regByte a)) s = .next t ∧ t.reg a = 0#8) ∧
    (∃ t, exec (.mul (regByte a) (regByte a)) s = .next t ∧ (t.reg a).toNat = (s.reg a).toNat ^ 2 % 256) ∧
    (s.reg a ≠ 0#8 → ∃ t, exec (.div (regByte a) (regByte a)) s = .next t ∧ t.reg a = 1#8) ∧
    (s.reg a = 0#8 → exec (.div (regByte a) (regByte a)) s = FaultNext s .arithmetic s.pc.toNat) ∧
    (s.reg a ≠ 0#8 → ∃ t, exec (.mod (regByte a) (regByte a)) s = .next t ∧ t.reg a = 0#8) ∧
    (s.reg a = 0#8 → exec (.mod (regByte a) (regByte a)) s = FaultNext s .arithmetic s.pc.toNat) ∧
    (∃ t, exec (.or (regByte a) (regByte a)) s = .next t ∧ t.reg a = s.reg a) ∧
    (∃ t, exec (.xor (regByte a) (regByte a)) s = .next t ∧ t.reg a = 0#8) ∧
    (∃ t, exec (.shl (regByte a) (regByte a)) s = .next t ∧
      (t.reg a).toNat = (s.reg a).toNat * 2 ^ (s.reg a).toNat % 256) ∧
    (∃ t, exec (.shr (regByte a) (regByte a)) s = .next t ∧ t.reg a = 0#8) ∧
    ∃ t, exec (.cmp (regByte a) (regByte a)) s = .next t ∧ flagE t.fl = true

/-! ## Stack, call and return -/

/-- R141. Bounds: decision D2 (log entry 12); PUSH R7 stores the decremented stack pointer: D29 (log entry 14). The common
faults: D2, D5, D6 (log entries 12, 13, 1). -/
def Obligations.PushDecrementsThenStores : Prop :=
  RegFormat 0x45#8 .push ∧
  (∀ (r : RegIdx) (s : State), s.mem.wf = true → 0 < s.sp.toNat → ∃ t, exec (.push (regByte r)) s = .next t ∧
    t.sp.toNat = s.sp.toNat - 1 ∧ t.byteAt (s.sp.toNat - 1) = (if r = 7 then t.sp else s.reg r) ∧
    Keeps s t [7] [s.sp.toNat - 1] ∧ SameControl s t ∧ t.pc = s.pc + 2#9) ∧
  ∀ (r : RegIdx) (s : State), s.sp.toNat = 0 → exec (.push (regByte r)) s = FaultNext s .address (-1)

/-- R142. Bounds: decision D2 (log entry 12); POP R7 ends with the popped value plus one: D29 (log entry 14). The common
faults: D2, D5, D6 (log entries 12, 13, 1). -/
def Obligations.PopLoadsThenIncrements : Prop :=
  RegFormat 0x46#8 .pop ∧
  (∀ (r : RegIdx) (s : State), r ≠ 7 → s.sp.toNat < 255 → ∃ t, exec (.pop (regByte r)) s = .next t ∧
    t.reg r = s.byteAt s.sp.toNat ∧ t.sp.toNat = s.sp.toNat + 1 ∧
    Keeps s t [r, 7] [] ∧ SameControl s t ∧ t.pc = s.pc + 2#9) ∧
  (∀ (r : RegIdx) (s : State), r ≠ 7 → s.sp.toNat = 255 → exec (.pop (regByte r)) s = FaultNext s .address 256) ∧
  (∀ s : State, (s.byteAt s.sp.toNat).toNat < 255 → ∃ t, exec (.pop 7#8) s = .next t ∧
    t.sp.toNat = (s.byteAt s.sp.toNat).toNat + 1 ∧ Keeps s t [7] [] ∧ SameControl s t ∧ t.pc = s.pc + 2#9) ∧
  ∀ s : State, (s.byteAt s.sp.toNat).toNat = 255 → exec (.pop 7#8) s = FaultNext s .address 256

/-- R143. Bounds and the return address's own check: decision D2 (log entry 12), checked before SP: D4 (log entry 23); CALL R7
jumps to the decremented stack pointer: D29 (log entry 14). The common faults: D2, D5, D6 (log entries 12, 13, 1). -/
def Obligations.CallPushesTheReturnAddress : Prop :=
  RegFormat 0x50#8 .call ∧
  (∀ (r : RegIdx) (s : State), s.mem.wf = true → s.pc.toNat ≤ 253 → 0 < s.sp.toNat →
    ∃ t, exec (.call (regByte r)) s = .next t ∧
    t.sp.toNat = s.sp.toNat - 1 ∧ (t.byteAt (s.sp.toNat - 1)).toNat = s.pc.toNat + 2 ∧
    t.pc.toNat = (if r = 7 then s.sp.toNat - 1 else (s.reg r).toNat) ∧
    Keeps s t [7] [s.sp.toNat - 1] ∧ SameControl s t) ∧
  (∀ (r : RegIdx) (s : State), 253 < s.pc.toNat →
    exec (.call (regByte r)) s = FaultNext s .address (s.pc.toNat + 2)) ∧
  ∀ (r : RegIdx) (s : State), s.pc.toNat ≤ 253 → s.sp.toNat = 0 →
    exec (.call (regByte r)) s = FaultNext s .address (-1)

/-- R144: RET has no operand and may stand at address 255 (decision D3, log entry 15). Bounds: decision D2 (log entry 12); the
latch-only next state: D6 (log entry 1). -/
def Obligations.RetPopsThePc : Prop :=
  (∀ rest, decode (0x11#8 :: rest) = .ok (.ret, rest)) ∧
  (∀ s : State, s.sp.toNat < 255 → ∃ t, exec .ret s = .next t ∧
    t.pc.toNat = (s.byteAt s.sp.toNat).toNat ∧ t.sp.toNat = s.sp.toNat + 1 ∧ Keeps s t [7] [] ∧ SameControl s t) ∧
  (∀ s : State, s.sp.toNat = 255 → exec .ret s = FaultNext s .address 256) ∧
  ∀ s : State, s.enabled = true → s.pc.toNat ≤ 255 → s.byteAt s.pc.toNat = 0x11#8 → step s = exec .ret s

/-- R146: PUSH then POP of a register other than 7 gives back every register, and leaves the pushed value in memory. -/
def Obligations.PushThenPopRoundTrips : Prop :=
  ∀ (r : RegIdx) (s : State), r ≠ 7 → s.mem.wf = true → 0 < s.sp.toNat → ∃ t u,
    exec (.push (regByte r)) s = .next t ∧ exec (.pop (regByte r)) t = .next u ∧
    (∀ q, u.reg q = s.reg q) ∧ u.byteAt (s.sp.toNat - 1) = s.reg r ∧
    (∀ a, a ≠ s.sp.toNat - 1 → u.byteAt a = s.byteAt a) ∧ SameControl s u ∧ u.pc = s.pc + 4#9

/-- R146: CALL, then a subroutine that restores SP and leaves its return address alone, then RET: pc is past the CALL and SP
is as before it. -/
def Obligations.CallThenRetReturns : Prop :=
  ∀ (r : RegIdx) (s : State), s.mem.wf = true → s.pc.toNat ≤ 253 → 0 < s.sp.toNat → ∃ t,
    exec (.call (regByte r)) s = .next t ∧
    ∀ u : State, u.sp = t.sp → u.byteAt u.sp.toNat = t.byteAt t.sp.toNat →
      ∃ v, exec .ret u = .next v ∧ v.pc.toNat = s.pc.toNat + 2 ∧ v.sp = s.sp ∧ ∀ a, v.byteAt a = u.byteAt a

/-! ## Jumps -/

/-- R151. The common faults: D2, D5, D6 (log entries 12, 13, 1). -/
def Obligations.JmpLoadsThePc : Prop :=
  RegFormat 0x54#8 .jmp ∧
  ∀ (r : RegIdx) (s : State), ∃ t, exec (.jmp (regByte r)) s = .next t ∧
    t.pc.toNat = (s.reg r).toNat ∧ t = { s with pc := t.pc }

/-- R152. The common faults: D2, D5, D6 (log entries 12, 13, 1); pc 256 after a fall through at 254: D1 (log entry 3). -/
def Obligations.JeqJumpsWhenEqual : Prop :=
  RegFormat 0x55#8 .jeq ∧
  ∀ (r : RegIdx) (s : State), exec (.jeq (regByte r)) s =
    .next { s with pc := if flagE s.fl = true then (s.reg r).setWidth 9 else s.pc + 2#9 }

/-- R153. The common faults: D2, D5, D6 (log entries 12, 13, 1); pc 256 after a fall through at 254: D1 (log entry 3). -/
def Obligations.JneJumpsWhenNotEqual : Prop :=
  RegFormat 0x56#8 .jne ∧
  ∀ (r : RegIdx) (s : State), exec (.jne (regByte r)) s =
    .next { s with pc := if flagE s.fl = true then s.pc + 2#9 else (s.reg r).setWidth 9 }

/-- R154: JEQ and JNE at the same flags are complements; before the first CMP JEQ is not taken and JNE is; G and L are
consulted by neither, nor by any other instruction, so there is no jump on greater or less. -/
def Obligations.ConditionalJumpsAreComplements : Prop :=
  (∀ (r : RegIdx) (s : State), flagE s.fl = true →
    exec (.jeq (regByte r)) s = exec (.jmp (regByte r)) s ∧ exec (.jne (regByte r)) s = .next { s with pc := s.pc + 2#9 }) ∧
  (∀ (r : RegIdx) (s : State), flagE s.fl = false →
    exec (.jne (regByte r)) s = exec (.jmp (regByte r)) s ∧ exec (.jeq (regByte r)) s = .next { s with pc := s.pc + 2#9 }) ∧
  flagE State.reset.fl = false ∧
  ∀ (i : Instr) (s : State) (f : FlagWord), (∀ a b, i ≠ .cmp a b) → flagE f = flagE s.fl →
    exec i { s with fl := f } = onNext (fun t => { t with fl := f }) (exec i s)
end

