-- ==== Sys2Proof/Laws/Decode.lean ====
section
/-! SUPPORT. The opcode table read forwards (the row of each opcode byte) and backwards (what a successful lookup means). -/

namespace Sys2Proof

/-- No two rows of the opcode table have the same byte (R78). -/
theorem opcodeTable_distinct : (opcodeTable.map fun row => row.1).Nodup := by decide

/-- The row that an instruction's opcode byte selects gives the instruction back from its operand bytes. -/
theorem lookup_opcode (i : Instr) :
    (∃ j, lookup i.opcode = some (.nullary j) ∧ i.operands = [] ∧ j = i) ∨
    (∃ mk a, lookup i.opcode = some (.unary mk) ∧ i.operands = [a] ∧ mk a = i) ∨
    (∃ mk a b, lookup i.opcode = some (.binary mk) ∧ i.operands = [a, b] ∧ mk a b = i) := by
  cases i <;> first
    | exact .inl ⟨_, rfl, rfl, rfl⟩
    | exact .inr (.inl ⟨_, _, rfl, rfl, rfl⟩)
    | exact .inr (.inr ⟨_, _, _, rfl, rfl, rfl⟩)

/-- The length that bits 7:6 give is the number of bytes of the encoding (R70, R78). -/
theorem Instr.length_eq (i : Instr) : i.length = (encode i).length := by
  cases i <;> simp [Instr.length, Instr.opcode, operandCountField, encode, Instr.operands]

/-- A property of rows that holds on the whole table holds of every row that a lookup finds. -/
theorem lookup_forall {P : Byte → Form → Prop} (h : ∀ row ∈ opcodeTable, P row.1 row.2) {op : Byte} {f : Form}
    (hf : lookup op = some f) : P op f := by
  rw [lookup, Option.map_eq_some_iff] at hf
  obtain ⟨row, hrow, rfl⟩ := hf
  have hop : row.1 = op := by simpa using List.find?_some hrow
  exact hop ▸ h row (List.mem_of_find?_eq_some hrow)

/-- A lookup that finds a row without operands found its instruction's opcode byte. -/
theorem lookup_nullary {op : Byte} {i : Instr} (h : lookup op = some (.nullary i)) : i.opcode = op ∧ i.operands = [] :=
  lookup_forall (P := fun op f => ∀ i, f = .nullary i → i.opcode = op ∧ i.operands = [])
    (by simp [opcodeTable, Instr.opcode, Instr.operands]) h i rfl

/-- A lookup that finds a one-operand row found the opcode byte of the instructions it makes. -/
theorem lookup_unary {op : Byte} {mk : Byte → Instr} (h : lookup op = some (.unary mk)) (a : Byte) :
    (mk a).opcode = op ∧ (mk a).operands = [a] :=
  lookup_forall (P := fun op f => ∀ mk, f = .unary mk → ∀ a, (mk a).opcode = op ∧ (mk a).operands = [a])
    (by simp [opcodeTable, Instr.opcode, Instr.operands]) h mk rfl a

/-- A lookup that finds a two-operand row found the opcode byte of the instructions it makes. -/
theorem lookup_binary {op : Byte} {mk : Byte → Byte → Instr} (h : lookup op = some (.binary mk)) (a b : Byte) :
    (mk a b).opcode = op ∧ (mk a b).operands = [a, b] :=
  lookup_forall (P := fun op f => ∀ mk, f = .binary mk → ∀ a b, (mk a b).opcode = op ∧ (mk a b).operands = [a, b])
    (by simp [opcodeTable, Instr.opcode, Instr.operands]) h mk rfl a b

end Sys2Proof
end

