-- ==== Sys2Proof/Laws/Memory.lean ====
section
/-! SUPPORT. The laws of memory: reading after writing, and that every memory operation keeps the canonical form. -/

namespace Sys2Proof.Machine

@[simp] theorem Memory.read_nil (a : Nat) : Memory.read [] a = Memory.blank := rfl

theorem Memory.read_head (b : Nat) (w : Byte) (m : Memory) (a : Nat) :
    Memory.read ((b, w) :: m) a = if a = b then w else Memory.read m a := rfl

theorem Memory.wfFrom_head (lo a : Nat) (v : Byte) (m : Memory) :
    Memory.wfFrom lo ((a, v) :: m) = true ↔
      lo ≤ a ∧ a < 256 ∧ v ≠ Memory.blank ∧ Memory.wfFrom (a + 1) m = true := by
  simp [Memory.wfFrom, and_assoc]

theorem Memory.wfFrom_mono {lo hi : Nat} {m : Memory} (h : Memory.wfFrom hi m = true) (hle : lo ≤ hi) :
    Memory.wfFrom lo m = true := by
  cases m with
  | nil => rfl
  | cons c m =>
    obtain ⟨a, v⟩ := c
    rw [Memory.wfFrom_head] at h ⊢
    exact ⟨by omega, h.2⟩

/-- A canonical memory reads as blank below its first possible entry. -/
theorem Memory.read_below {m : Memory} : ∀ {lo a : Nat}, Memory.wfFrom lo m = true → a < lo → Memory.read m a = Memory.blank := by
  induction m with
  | nil => intros; rfl
  | cons c m ih =>
    obtain ⟨b, w⟩ := c
    intro lo a h hlt
    rw [Memory.wfFrom_head] at h
    rw [Memory.read_head, if_neg (by omega)]
    exact ih h.2.2.2 (by omega)

/-- A canonical memory reads as blank above the last cell. -/
theorem Memory.read_above {m : Memory} : ∀ {lo a : Nat}, Memory.wfFrom lo m = true → 256 ≤ a → Memory.read m a = Memory.blank := by
  induction m with
  | nil => intros; rfl
  | cons c m ih =>
    obtain ⟨b, w⟩ := c
    intro lo a h hge
    rw [Memory.wfFrom_head] at h
    rw [Memory.read_head, if_neg (by omega)]
    exact ih h.2.2.2 hge

theorem Memory.read_cons (a : Nat) (v : Byte) (m : Memory) (i : Nat) (hb : i = a → v = Memory.blank → Memory.read m a = Memory.blank) :
    Memory.read (Memory.cons a v m) i = if i = a then v else Memory.read m i := by
  unfold Memory.cons
  split
  · rename_i hv
    by_cases hi : i = a
    · simp [hi, hb hi hv, hv]
    · simp [hi]
  · rfl

/-- Reading after a write: the written cell holds the written byte, every other cell is as before (R51, R52). -/
theorem Memory.read_write {m : Memory} : ∀ {lo : Nat}, Memory.wfFrom lo m = true → ∀ (a i : Nat) (v : Byte),
    Memory.read (Memory.write a v m) i = if i = a then v else Memory.read m i := by
  induction m with
  | nil =>
    intro lo _ a i v
    exact Memory.read_cons a v [] i (fun _ _ => rfl)
  | cons c m ih =>
    obtain ⟨b, w⟩ := c
    intro lo h a i v
    have h' := (Memory.wfFrom_head lo b w m).1 h
    unfold Memory.write
    split
    · exact Memory.read_cons a v _ i fun _ _ => Memory.read_below (lo := b) ((Memory.wfFrom_head b b w m).2 ⟨le_rfl, h'.2⟩) (by omega)
    · split
      · rename_i hab
        subst hab
        rw [Memory.read_cons a v m i fun _ _ => Memory.read_below h'.2.2.2 (by omega), Memory.read_head]
        split <;> rfl
      · rw [Memory.read_head, Memory.read_head, ih h'.2.2.2]
        split <;> split <;> first | rfl | omega

theorem Memory.wfFrom_cons {lo a : Nat} {v : Byte} {m : Memory} (hlo : lo ≤ a) (ha : a < 256)
    (hm : Memory.wfFrom (a + 1) m = true) : Memory.wfFrom lo (Memory.cons a v m) = true := by
  unfold Memory.cons
  split
  · exact Memory.wfFrom_mono hm (by omega)
  · exact (Memory.wfFrom_head lo a v m).2 ⟨hlo, ha, ‹_›, hm⟩

theorem Memory.wfFrom_write {m : Memory} : ∀ {lo a : Nat} (v : Byte), lo ≤ a → a < 256 → Memory.wfFrom lo m = true →
    Memory.wfFrom lo (Memory.write a v m) = true := by
  induction m with
  | nil => intro lo a v hlo ha _; exact Memory.wfFrom_cons hlo ha rfl
  | cons c m ih =>
    obtain ⟨b, w⟩ := c
    intro lo a v hlo ha h
    have h' := (Memory.wfFrom_head lo b w m).1 h
    unfold Memory.write
    split
    · exact Memory.wfFrom_cons hlo ha ((Memory.wfFrom_head _ b w m).2 ⟨by omega, h'.2⟩)
    · split
      · rename_i hab
        subst hab
        exact Memory.wfFrom_cons hlo ha h'.2.2.2
      · exact (Memory.wfFrom_head lo b w _).2 ⟨h'.1, h'.2.1, h'.2.2.1, ih v (by omega) ha h'.2.2.2⟩

/-- A write inside the address space keeps the canonical form. -/
theorem Memory.wf_write {a : Nat} (v : Byte) {m : Memory} (ha : a < 256) (h : m.wf = true) : (Memory.write a v m).wf = true :=
  Memory.wfFrom_write v (Nat.zero_le a) ha h

/-- Loading bytes keeps the canonical form. -/
theorem Memory.wf_load (vs : List Byte) : ∀ (a : Nat) {m : Memory}, m.wf = true → (Memory.load a vs m).wf = true := by
  induction vs with
  | nil => intro a m h; exact h
  | cons v vs ih =>
    intro a m h
    unfold Memory.load
    split
    · exact ih _ (Memory.wf_write v ‹_› h)
    · exact ih _ h

/-- Loaded bytes stand at rising addresses, those above 255 are dropped, every other cell is as before. -/
theorem Memory.read_load (vs : List Byte) : ∀ (a : Nat) {m : Memory}, m.wf = true → ∀ i : Nat,
    Memory.read (Memory.load a vs m) i =
      if h : a ≤ i ∧ i < a + vs.length ∧ i < 256 then vs[i - a]'(by omega) else Memory.read m i := by
  induction vs with
  | nil =>
    intro a m _ i
    rw [dif_neg (by simp only [List.length_nil]; omega)]
    rfl
  | cons v vs ih =>
    intro a m h i
    unfold Memory.load
    have hstep : ∀ j, Memory.read (if a < Config.memSize then Memory.write a v m else m) j =
        if j = a ∧ a < 256 then v else Memory.read m j := by
      intro j
      split
      · rw [Memory.read_write h]
        simp_all
      · rename_i hlt
        have hlt' : ¬ a < 256 := hlt
        rw [if_neg (by omega)]
    have hwf : Memory.wf (if a < Config.memSize then Memory.write a v m else m) = true := by
      split
      · exact Memory.wf_write v ‹_› h
      · exact h
    rw [ih (a + 1) hwf i, hstep]
    by_cases hin : a ≤ i ∧ i < a + (v :: vs).length ∧ i < 256
    · rw [dif_pos hin]
      by_cases hia : i = a
      · subst hia
        rw [dif_neg (by omega), if_pos ⟨rfl, hin.2.2⟩]
        simp
      · rw [List.length_cons] at hin
        rw [dif_pos (by omega)]
        simp only [show i - a = (i - (a + 1)) + 1 by omega, List.getElem_cons_succ]
    · rw [dif_neg hin]
      rw [List.length_cons] at hin
      rw [dif_neg (by omega), if_neg (by omega)]

end Sys2Proof.Machine
end

