-- ==== Sys2Proof/Laws/State.lean ====
section
/-! SUPPORT. What each update of State leaves in each field, so that no proof unfolds a record update. -/

namespace Sys2Proof.Machine

variable (s : State)

@[simp] theorem State.setReg_pc (r : RegIdx) (v : Byte) : (s.setReg r v).pc = s.pc := rfl
@[simp] theorem State.setReg_fl (r : RegIdx) (v : Byte) : (s.setReg r v).fl = s.fl := rfl
@[simp] theorem State.setReg_running (r : RegIdx) (v : Byte) : (s.setReg r v).running = s.running := rfl
@[simp] theorem State.setReg_fault (r : RegIdx) (v : Byte) : (s.setReg r v).fault = s.fault := rfl
@[simp] theorem State.setReg_mem (r : RegIdx) (v : Byte) : (s.setReg r v).mem = s.mem := rfl
@[simp] theorem State.setReg_out (r : RegIdx) (v : Byte) : (s.setReg r v).out = s.out := rfl
@[simp] theorem State.setReg_byteAt (r : RegIdx) (v : Byte) (i : Nat) : (s.setReg r v).byteAt i = s.byteAt i := rfl

@[simp] theorem State.setSp_pc (v : Byte) : (s.setSp v).pc = s.pc := rfl
@[simp] theorem State.setSp_fl (v : Byte) : (s.setSp v).fl = s.fl := rfl
@[simp] theorem State.setSp_running (v : Byte) : (s.setSp v).running = s.running := rfl
@[simp] theorem State.setSp_fault (v : Byte) : (s.setSp v).fault = s.fault := rfl
@[simp] theorem State.setSp_mem (v : Byte) : (s.setSp v).mem = s.mem := rfl
@[simp] theorem State.setSp_out (v : Byte) : (s.setSp v).out = s.out := rfl
@[simp] theorem State.setSp_byteAt (v : Byte) (i : Nat) : (s.setSp v).byteAt i = s.byteAt i := rfl

@[simp] theorem State.setFlags_pc (f : FlagWord) : (s.setFlags f).pc = s.pc := rfl
@[simp] theorem State.setFlags_fl (f : FlagWord) : (s.setFlags f).fl = f := rfl
@[simp] theorem State.setFlags_running (f : FlagWord) : (s.setFlags f).running = s.running := rfl
@[simp] theorem State.setFlags_fault (f : FlagWord) : (s.setFlags f).fault = s.fault := rfl
@[simp] theorem State.setFlags_mem (f : FlagWord) : (s.setFlags f).mem = s.mem := rfl
@[simp] theorem State.setFlags_out (f : FlagWord) : (s.setFlags f).out = s.out := rfl
@[simp] theorem State.setFlags_reg (f : FlagWord) (q : RegIdx) : (s.setFlags f).reg q = s.reg q := rfl
@[simp] theorem State.setFlags_sp (f : FlagWord) : (s.setFlags f).sp = s.sp := rfl
@[simp] theorem State.setFlags_byteAt (f : FlagWord) (i : Nat) : (s.setFlags f).byteAt i = s.byteAt i := rfl

@[simp] theorem State.advance_pc (n : Nat) : (s.advance n).pc = s.pc + BitVec.ofNat 9 n := rfl
@[simp] theorem State.advance_fl (n : Nat) : (s.advance n).fl = s.fl := rfl
@[simp] theorem State.advance_running (n : Nat) : (s.advance n).running = s.running := rfl
@[simp] theorem State.advance_fault (n : Nat) : (s.advance n).fault = s.fault := rfl
@[simp] theorem State.advance_mem (n : Nat) : (s.advance n).mem = s.mem := rfl
@[simp] theorem State.advance_out (n : Nat) : (s.advance n).out = s.out := rfl
@[simp] theorem State.advance_reg (n : Nat) (q : RegIdx) : (s.advance n).reg q = s.reg q := rfl
@[simp] theorem State.advance_sp (n : Nat) : (s.advance n).sp = s.sp := rfl
@[simp] theorem State.advance_byteAt (n : Nat) (i : Nat) : (s.advance n).byteAt i = s.byteAt i := rfl

@[simp] theorem State.jumpTo_pc (v : Byte) : (s.jumpTo v).pc = v.setWidth 9 := rfl
@[simp] theorem State.jumpTo_fl (v : Byte) : (s.jumpTo v).fl = s.fl := rfl
@[simp] theorem State.jumpTo_running (v : Byte) : (s.jumpTo v).running = s.running := rfl
@[simp] theorem State.jumpTo_fault (v : Byte) : (s.jumpTo v).fault = s.fault := rfl
@[simp] theorem State.jumpTo_mem (v : Byte) : (s.jumpTo v).mem = s.mem := rfl
@[simp] theorem State.jumpTo_out (v : Byte) : (s.jumpTo v).out = s.out := rfl
@[simp] theorem State.jumpTo_reg (v : Byte) (q : RegIdx) : (s.jumpTo v).reg q = s.reg q := rfl
@[simp] theorem State.jumpTo_sp (v : Byte) : (s.jumpTo v).sp = s.sp := rfl
@[simp] theorem State.jumpTo_byteAt (v : Byte) (i : Nat) : (s.jumpTo v).byteAt i = s.byteAt i := rfl

@[simp] theorem State.emit_pc (k : OutKind) (v : Byte) : (s.emit k v).pc = s.pc := rfl
@[simp] theorem State.emit_fl (k : OutKind) (v : Byte) : (s.emit k v).fl = s.fl := rfl
@[simp] theorem State.emit_running (k : OutKind) (v : Byte) : (s.emit k v).running = s.running := rfl
@[simp] theorem State.emit_fault (k : OutKind) (v : Byte) : (s.emit k v).fault = s.fault := rfl
@[simp] theorem State.emit_mem (k : OutKind) (v : Byte) : (s.emit k v).mem = s.mem := rfl
@[simp] theorem State.emit_out (k : OutKind) (v : Byte) : (s.emit k v).out = s.out ++ [⟨k, v⟩] := rfl
@[simp] theorem State.emit_reg (k : OutKind) (v : Byte) (q : RegIdx) : (s.emit k v).reg q = s.reg q := rfl
@[simp] theorem State.emit_sp (k : OutKind) (v : Byte) : (s.emit k v).sp = s.sp := rfl
@[simp] theorem State.emit_byteAt (k : OutKind) (v : Byte) (i : Nat) : (s.emit k v).byteAt i = s.byteAt i := rfl

@[simp] theorem State.halt_pc : (s.halt).pc = s.pc := rfl
@[simp] theorem State.halt_fl : (s.halt).fl = s.fl := rfl
@[simp] theorem State.halt_running : (s.halt).running = false := rfl
@[simp] theorem State.halt_fault : (s.halt).fault = s.fault := rfl
@[simp] theorem State.halt_mem : (s.halt).mem = s.mem := rfl
@[simp] theorem State.halt_out : (s.halt).out = s.out := rfl
@[simp] theorem State.halt_reg (q : RegIdx) : (s.halt).reg q = s.reg q := rfl
@[simp] theorem State.halt_sp : (s.halt).sp = s.sp := rfl
@[simp] theorem State.halt_byteAt (i : Nat) : (s.halt).byteAt i = s.byteAt i := rfl

@[simp] theorem State.takeFault_pc (t : Trap) : (s.takeFault t).pc = s.pc := rfl
@[simp] theorem State.takeFault_fl (t : Trap) : (s.takeFault t).fl = s.fl := rfl
@[simp] theorem State.takeFault_running (t : Trap) : (s.takeFault t).running = s.running := rfl
@[simp] theorem State.takeFault_fault (t : Trap) : (s.takeFault t).fault = some ⟨t.kind, s.pc, t.info⟩ := rfl
@[simp] theorem State.takeFault_mem (t : Trap) : (s.takeFault t).mem = s.mem := rfl
@[simp] theorem State.takeFault_out (t : Trap) : (s.takeFault t).out = s.out := rfl
@[simp] theorem State.takeFault_reg (t : Trap) (q : RegIdx) : (s.takeFault t).reg q = s.reg q := rfl
@[simp] theorem State.takeFault_sp (t : Trap) : (s.takeFault t).sp = s.sp := rfl
@[simp] theorem State.takeFault_byteAt (t : Trap) (i : Nat) : (s.takeFault t).byteAt i = s.byteAt i := rfl

@[simp] theorem State.placeAtPc_pc (bs : List Byte) : (s.placeAtPc bs).pc = s.pc := rfl
@[simp] theorem State.placeAtPc_fl (bs : List Byte) : (s.placeAtPc bs).fl = s.fl := rfl
@[simp] theorem State.placeAtPc_running (bs : List Byte) : (s.placeAtPc bs).running = s.running := rfl
@[simp] theorem State.placeAtPc_fault (bs : List Byte) : (s.placeAtPc bs).fault = s.fault := rfl
@[simp] theorem State.placeAtPc_mem (bs : List Byte) : (s.placeAtPc bs).mem = s.mem.load s.pc.toNat bs := rfl
@[simp] theorem State.placeAtPc_out (bs : List Byte) : (s.placeAtPc bs).out = s.out := rfl
@[simp] theorem State.placeAtPc_reg (bs : List Byte) (q : RegIdx) : (s.placeAtPc bs).reg q = s.reg q := rfl
@[simp] theorem State.placeAtPc_sp (bs : List Byte) : (s.placeAtPc bs).sp = s.sp := rfl

@[simp] theorem State.setReg_reg_same (r : RegIdx) (v : Byte) : (s.setReg r v).reg r = v := by
  simp [State.reg, State.setReg]

theorem State.setReg_reg_other {r q : RegIdx} (v : Byte) (h : q ≠ r) : (s.setReg r v).reg q = s.reg q := by
  simp [State.reg, State.setReg, Fin.val_inj, h.symm]

theorem State.setReg_reg (r q : RegIdx) (v : Byte) :
    (s.setReg r v).reg q = if q = r then v else s.reg q := by
  by_cases h : q = r
  · subst h; simp
  · rw [if_neg h, s.setReg_reg_other v h]

theorem State.setSp_eq_setReg (v : Byte) : s.setSp v = s.setReg Config.spIndex v := rfl

theorem State.sp_eq_reg : s.sp = s.reg Config.spIndex := rfl

@[simp] theorem State.setSp_sp (v : Byte) : (s.setSp v).sp = v := s.setReg_reg_same Config.spIndex v

theorem State.setSp_reg (q : RegIdx) (v : Byte) :
    (s.setSp v).reg q = if q = Config.spIndex then v else s.reg q := s.setReg_reg Config.spIndex q v

theorem State.setReg_sp (r : RegIdx) (v : Byte) :
    (s.setReg r v).sp = if Config.spIndex = r then v else s.sp := s.setReg_reg r Config.spIndex v

theorem State.enabled_iff : s.enabled = true ↔ s.running = true ∧ s.fault = none := by
  simp [State.enabled]

end Sys2Proof.Machine
end

