-- ==== Sys2Proof/Laws/Ops.lean ====
section
/-! SUPPORT. One lemma per shared operation that says all it can do: the checked address, the two memory primitives, register
operands, and how a step ends. -/

namespace Sys2Proof.Machine

@[simp] theorem except_bind_ok {α β : Type} (a : α) (f : α → Except Trap β) : (Except.ok a >>= f) = f a := rfl

@[simp] theorem except_bind_error {α β : Type} (t : Trap) (f : α → Except Trap β) :
    ((Except.error t : Except Trap α) >>= f) = .error t := rfl

@[simp] theorem except_pure {α : Type} (a : α) : (pure a : Except Trap α) = .ok a := rfl

@[simp] theorem finish_ok (s t : State) : finish s (.ok t) = .next t := rfl

@[simp] theorem finish_error (s : State) (t : Trap) : finish s (.error t) = .next (s.takeFault t) := rfl

theorem checkAddr_inside {a : Int} (h0 : 0 ≤ a) (h1 : a ≤ 255) : checkAddr a = .ok (BitVec.ofNat 8 a.toNat) :=
  if_pos ⟨h0, h1⟩

theorem checkAddr_outside {a : Int} (h : a < 0 ∨ 255 < a) : checkAddr a = .error ⟨.address, a⟩ :=
  if_neg (by omega)

theorem checkAddr_nat {a : Nat} (h : a ≤ 255) : checkAddr a = .ok (BitVec.ofNat 8 a) := by
  rw [checkAddr_inside (by omega) (by omega)]; simp

theorem checkAddr_nat_outside {a : Nat} (h : 255 < a) : checkAddr a = .error ⟨.address, a⟩ :=
  checkAddr_outside (by omega)

/-- What a checked address answers: the address as a byte, or AddressError with the address. -/
theorem checkAddr_cases (a : Int) :
    (∃ c : Byte, checkAddr a = .ok c ∧ (c.toNat : Int) = a) ∨
      ((a < 0 ∨ 255 < a) ∧ checkAddr a = .error ⟨.address, a⟩) := by
  by_cases h : 0 ≤ a ∧ a ≤ 255
  · refine .inl ⟨_, checkAddr_inside h.1 h.2, ?_⟩
    rw [BitVec.toNat_ofNat]
    omega
  · exact .inr ⟨by omega, checkAddr_outside (by omega)⟩

@[simp] theorem memRead_byte (b : Byte) (s : State) : memRead (b.toNat : Int) s = .ok (s.byteAt b.toNat) := by
  have h := b.isLt
  rw [memRead, checkAddr_nat (by omega)]
  simp [State.byteAt]

theorem memRead_nat {a : Nat} (h : a ≤ 255) (s : State) : memRead (a : Int) s = .ok (s.byteAt a) := by
  rw [memRead, checkAddr_nat h]
  simp only [State.byteAt, BitVec.toNat_ofNat]
  rw [Nat.mod_eq_of_lt (by omega)]

theorem memRead_nat_outside {a : Nat} (h : 255 < a) (s : State) : memRead (a : Int) s = .error ⟨.address, a⟩ := by
  rw [memRead, checkAddr_nat_outside h]

/-- MemWrite at a byte's address never faults. -/
@[simp] theorem memWrite_byte (b v : Byte) (s : State) :
    memWrite (b.toNat : Int) v s = .ok { s with mem := s.mem.write b.toNat v } := by
  have h := b.isLt
  rw [memWrite, checkAddr_nat (by omega)]
  simp

theorem regByte_toNat (r : RegIdx) : (regByte r).toNat = r.val := by
  have h := r.isLt
  simp only [regByte, BitVec.toNat_ofNat]
  omega

@[simp] theorem regIndex_regByte (r : RegIdx) : regIndex (regByte r) = .ok r := by
  have h : (regByte r).toNat < 8 := by rw [regByte_toNat]; exact r.isLt
  rw [regIndex, dif_pos h]
  simp [regByte_toNat]

theorem regIndex_illegal {b : Byte} (h : 7 < b.toNat) : regIndex b = .error ⟨.registerIndex, b.toNat⟩ :=
  dif_neg (by omega)

/-- A byte either names a register or is the information of a RegisterIndexError (R95). -/
theorem regIndex_cases (b : Byte) :
    (∃ r, b = regByte r ∧ regIndex b = .ok r) ∨ (7 < b.toNat ∧ regIndex b = .error ⟨.registerIndex, b.toNat⟩) := by
  by_cases h : b.toNat < 8
  · refine .inl ⟨⟨b.toNat, h⟩, ?_, dif_pos h⟩
    simp [regByte]
  · exact .inr ⟨by omega, regIndex_illegal (by omega)⟩

theorem jumpTo_pc_toNat (s : State) (v : Byte) : (s.jumpTo v).pc.toNat = v.toNat := by
  have := v.isLt
  simp only [State.jumpTo_pc, BitVec.toNat_setWidth]
  omega

end Sys2Proof.Machine
end

