-- ==== Sys2Proof/Laws/Exec.lean ====
section
/-! SUPPORT. What exec can do, said once for all 21 instructions: it enters a fault, or it commits; and what each of the two can
change. Proofs about all instructions cite `exec_cases` and unfold no meaning. -/

namespace Sys2Proof.Machine

/-- What entering a fault from exec looks like: only the latch is written, with one of the causes of R161 and R165. -/
structure EntersFault (i : Instr) (s t : State) : Prop where
  entry : ∃ tr : Trap, t = s.takeFault tr ∧
    ((tr.kind = .registerIndex ∧ 8 ≤ tr.info ∧ tr.info ≤ 255) ∨
     (tr.kind = .arithmetic ∧ tr.info = s.pc.toNat) ∨
     (tr.kind = .address ∧ (tr.info = -1 ∨ tr.info = 256 ∨
      ((∃ a, i = .call a) ∧ 253 < s.pc.toNat ∧ tr.info = s.pc.toNat + 2))))

/-- What committing an instruction can change, field by field; registers are left to the rule of each instruction. -/
structure Commits (i : Instr) (s t : State) : Prop where
  fault : t.fault = s.fault
  fl : t.fl = s.fl ∨ ((∃ a b, i = .cmp a b) ∧ (t.fl = 0b001#3 ∨ t.fl = 0b010#3 ∨ t.fl = 0b100#3))
  running : t.running = s.running ∨ (i = .hlt ∧ t.running = false)
  out : t.out = s.out ∨ (∃ r, i = .prn (regByte r) ∧ t.out = s.out ++ [⟨.prn, s.reg r⟩]) ∨
    ∃ r, i = .pra (regByte r) ∧ t.out = s.out ++ [⟨.pra, s.reg r⟩]
  mem : t.mem = s.mem ∨ (storesToStack i = true ∧ ∃ v c : Byte, c.toNat + 1 = s.sp.toNat ∧ t.mem = s.mem.write c.toNat v)
  pc : t.pc = s.pc + BitVec.ofNat 9 (encode i).length ∨ (setsPcField i.opcode = true ∧ t.pc.toNat ≤ 255)

theorem entersFault_registerIndex {i : Instr} {s : State} {b : Byte} (hb : 7 < b.toNat) :
    EntersFault i s (s.takeFault ⟨.registerIndex, b.toNat⟩) := by
  have := b.isLt
  exact ⟨_, rfl, .inl ⟨rfl, by simp only; omega, by simp only; omega⟩⟩

theorem entersFault_arithmetic {i : Instr} {s : State} : EntersFault i s (s.takeFault ⟨.arithmetic, s.pc.toNat⟩) :=
  ⟨_, rfl, .inr (.inl ⟨rfl, rfl⟩)⟩

/-- An increment of a byte that left 0..255 is an AddressError(256). -/
theorem entersFault_increment {i : Instr} {s : State} {b : Byte} (h : ((b.toNat : Int) + 1) < 0 ∨ 255 < (b.toNat : Int) + 1) :
    EntersFault i s (s.takeFault ⟨.address, (b.toNat : Int) + 1⟩) := by
  have := b.isLt
  exact ⟨_, rfl, .inr (.inr ⟨rfl, .inr (.inl (by simp only; omega))⟩)⟩

/-- A decrement of a byte that left 0..255 is an AddressError(-1). -/
theorem entersFault_decrement {i : Instr} {s : State} {b : Byte} (h : ((b.toNat : Int) - 1) < 0 ∨ 255 < (b.toNat : Int) - 1) :
    EntersFault i s (s.takeFault ⟨.address, (b.toNat : Int) - 1⟩) := by
  have := b.isLt
  exact ⟨_, rfl, .inr (.inr ⟨rfl, .inl (by simp only; omega)⟩)⟩

theorem setWidth_le (v : Byte) : (v.setWidth 9).toNat ≤ 255 := by
  have := v.isLt
  rw [BitVec.toNat_setWidth]
  omega

theorem compareFlags_oneHot (A B : Byte) :
    compareFlags A B = 0b001#3 ∨ compareFlags A B = 0b010#3 ∨ compareFlags A B = 0b100#3 := by
  unfold compareFlags
  split <;> [skip; split] <;> simp

/-- Every outcome of exec: the fault entered, or the instruction committed. -/
theorem exec_cases (i : Instr) (s t : State) (h : exec i s = .next t) : EntersFault i s t ∨ Commits i s t := by
  cases i with
  | hlt =>
    simp only [exec, execHlt, Host.Outcome.next.injEq] at h
    subst h
    exact .inr ⟨rfl, .inl rfl, .inr ⟨rfl, rfl⟩, .inl rfl, .inl rfl, .inl rfl⟩
  | ret =>
    simp only [exec, execRet, memRead_byte, except_bind_ok] at h
    rcases checkAddr_cases (s.sp.toNat + 1) with ⟨c, hc, _⟩ | ⟨hlt, hc⟩
    · simp only [hc, except_bind_ok, except_pure, finish_ok, Host.Outcome.next.injEq] at h
      subst h
      exact .inr ⟨rfl, .inl rfl, .inl rfl, .inl rfl, .inl rfl, .inr ⟨by simp [setsPcField, Instr.opcode], setWidth_le _⟩⟩
    · simp only [hc, except_bind_error, finish_error, Host.Outcome.next.injEq] at h
      subst h
      exact .inl (entersFault_increment hlt)
  | push a =>
    rcases regIndex_cases a with ⟨r, rfl, hr⟩ | ⟨hb, hr⟩
    · rcases checkAddr_cases (s.sp.toNat - 1) with ⟨c, hc, hcn⟩ | ⟨hlt, hc⟩
      · simp only [exec, execPush, hr, hc, except_bind_ok, memWrite_byte, except_pure, finish_ok, Host.Outcome.next.injEq,
          State.setSp_sp] at h
        subst h
        exact .inr ⟨rfl, .inl rfl, .inl rfl, .inl rfl, .inr ⟨rfl, _, c, by omega, rfl⟩, .inl rfl⟩
      · simp only [exec, execPush, hr, hc, except_bind_ok, except_bind_error, finish_error, Host.Outcome.next.injEq] at h
        subst h
        exact .inl (entersFault_decrement hlt)
    · simp only [exec, execPush, hr, except_bind_error, finish_error, Host.Outcome.next.injEq] at h
      subst h
      exact .inl (entersFault_registerIndex hb)
  | pop a =>
    rcases regIndex_cases a with ⟨r, rfl, hr⟩ | ⟨hb, hr⟩
    · rcases checkAddr_cases ((popBase r (s.byteAt s.sp.toNat) s).toNat + 1) with ⟨c, hc, hcn⟩ | ⟨hlt, hc⟩
      · simp only [exec, execPop, hr, hc, except_bind_ok, memRead_byte, except_pure, finish_ok, Host.Outcome.next.injEq] at h
        subst h
        exact .inr ⟨rfl, .inl rfl, .inl rfl, .inl rfl, .inl rfl, .inl rfl⟩
      · simp only [exec, execPop, hr, hc, except_bind_ok, memRead_byte, except_bind_error, finish_error,
          Host.Outcome.next.injEq] at h
        subst h
        exact .inl (entersFault_increment hlt)
    · simp only [exec, execPop, hr, except_bind_error, finish_error, Host.Outcome.next.injEq] at h
      subst h
      exact .inl (entersFault_registerIndex hb)
  | call a =>
    rcases regIndex_cases a with ⟨r, rfl, hr⟩ | ⟨hb, hr⟩
    · rcases checkAddr_cases (s.pc.toNat + 2) with ⟨d, hd, _⟩ | ⟨hdlt, hd⟩
      · rcases checkAddr_cases (s.sp.toNat - 1) with ⟨c, hc, hcn⟩ | ⟨hlt, hc⟩
        · simp only [exec, execCall, hr, hc, hd, except_bind_ok, memWrite_byte, except_pure, finish_ok,
            Host.Outcome.next.injEq, State.setSp_sp] at h
          subst h
          exact .inr ⟨rfl, .inl rfl, .inl rfl, .inl rfl, .inr ⟨rfl, _, c, by omega, rfl⟩, .inr ⟨by simp [setsPcField, Instr.opcode], setWidth_le _⟩⟩
        · simp only [exec, execCall, hr, hc, hd, except_bind_ok, except_bind_error, finish_error,
            Host.Outcome.next.injEq] at h
          subst h
          exact .inl (entersFault_decrement hlt)
      · simp only [exec, execCall, hr, hd, except_bind_ok, except_bind_error, finish_error, Host.Outcome.next.injEq] at h
        subst h
        exact .inl ⟨_, rfl, .inr (.inr ⟨rfl, .inr (.inr ⟨⟨_, rfl⟩, by omega, rfl⟩)⟩)⟩
    · simp only [exec, execCall, hr, except_bind_error, finish_error, Host.Outcome.next.injEq] at h
      subst h
      exact .inl (entersFault_registerIndex hb)
  | jmp a | jeq a | jne a =>
    rcases regIndex_cases a with ⟨r, rfl, hr⟩ | ⟨hb, hr⟩
    · simp only [exec, execJmp, execJeq, execJne, jumpIf, hr, except_bind_ok, except_pure, finish_ok,
        Host.Outcome.next.injEq] at h
      subst h
      split
      · exact .inr ⟨rfl, .inl rfl, .inl rfl, .inl rfl, .inl rfl, .inr ⟨by simp [setsPcField, Instr.opcode], setWidth_le _⟩⟩
      · exact .inr ⟨rfl, .inl rfl, .inl rfl, .inl rfl, .inl rfl, .inl rfl⟩
    · simp only [exec, execJmp, execJeq, execJne, jumpIf, hr, except_bind_error, finish_error,
        Host.Outcome.next.injEq] at h
      subst h
      exact .inl (entersFault_registerIndex hb)
  | prn a =>
    rcases regIndex_cases a with ⟨r, rfl, hr⟩ | ⟨hb, hr⟩
    · simp only [exec, execPrn, emitRegister, hr, except_bind_ok, except_pure, finish_ok, Host.Outcome.next.injEq] at h
      subst h
      exact .inr ⟨rfl, .inl rfl, .inl rfl, .inr (.inl ⟨r, rfl, rfl⟩), .inl rfl, .inl rfl⟩
    · simp only [exec, execPrn, emitRegister, hr, except_bind_error, finish_error, Host.Outcome.next.injEq] at h
      subst h
      exact .inl (entersFault_registerIndex hb)
  | pra a =>
    rcases regIndex_cases a with ⟨r, rfl, hr⟩ | ⟨hb, hr⟩
    · simp only [exec, execPra, emitRegister, hr, except_bind_ok, except_pure, finish_ok, Host.Outcome.next.injEq] at h
      subst h
      exact .inr ⟨rfl, .inl rfl, .inl rfl, .inr (.inr ⟨r, rfl, rfl⟩), .inl rfl, .inl rfl⟩
    · simp only [exec, execPra, emitRegister, hr, except_bind_error, finish_error, Host.Outcome.next.injEq] at h
      subst h
      exact .inl (entersFault_registerIndex hb)
  | ldi a v =>
    rcases regIndex_cases a with ⟨r, rfl, hr⟩ | ⟨hb, hr⟩
    · simp only [exec, execLdi, hr, except_bind_ok, except_pure, finish_ok, Host.Outcome.next.injEq] at h
      subst h
      exact .inr ⟨rfl, .inl rfl, .inl rfl, .inl rfl, .inl rfl, .inl rfl⟩
    · simp only [exec, execLdi, hr, except_bind_error, finish_error, Host.Outcome.next.injEq] at h
      subst h
      exact .inl (entersFault_registerIndex hb)
  | cmp a b =>
    rcases regIndex_cases a with ⟨r, rfl, hr⟩ | ⟨hb, hr⟩
    · rcases regIndex_cases b with ⟨q, rfl, hq⟩ | ⟨hb, hq⟩
      · simp only [exec, execCmp, hr, hq, except_bind_ok, except_pure, finish_ok, Host.Outcome.next.injEq] at h
        subst h
        exact .inr ⟨rfl, .inr ⟨⟨_, _, rfl⟩, compareFlags_oneHot _ _⟩, .inl rfl, .inl rfl, .inl rfl, .inl rfl⟩
      · simp only [exec, execCmp, hr, hq, except_bind_ok, except_bind_error, finish_error, Host.Outcome.next.injEq] at h
        subst h
        exact .inl (entersFault_registerIndex hb)
    · simp only [exec, execCmp, hr, except_bind_error, finish_error, Host.Outcome.next.injEq] at h
      subst h
      exact .inl (entersFault_registerIndex hb)
  | div a b | mod a b =>
    rcases regIndex_cases a with ⟨r, rfl, hr⟩ | ⟨hb, hr⟩
    · rcases regIndex_cases b with ⟨q, rfl, hq⟩ | ⟨hb, hq⟩
      · simp only [exec, execDiv, execMod, aluDivide, hr, hq, except_bind_ok, except_pure] at h
        split at h
        · simp only [finish_error, Host.Outcome.next.injEq] at h
          subst h
          exact .inl entersFault_arithmetic
        · simp only [finish_ok, Host.Outcome.next.injEq] at h
          subst h
          exact .inr ⟨rfl, .inl rfl, .inl rfl, .inl rfl, .inl rfl, .inl rfl⟩
      · simp only [exec, execDiv, execMod, aluDivide, hr, hq, except_bind_ok, except_bind_error, finish_error,
          Host.Outcome.next.injEq] at h
        subst h
        exact .inl (entersFault_registerIndex hb)
    · simp only [exec, execDiv, execMod, aluDivide, hr, except_bind_error, finish_error, Host.Outcome.next.injEq] at h
      subst h
      exact .inl (entersFault_registerIndex hb)
  | add a b | sub a b | mul a b | or a b | xor a b | shl a b | shr a b =>
    rcases regIndex_cases a with ⟨r, rfl, hr⟩ | ⟨hb, hr⟩
    · rcases regIndex_cases b with ⟨q, rfl, hq⟩ | ⟨hb, hq⟩
      · simp only [exec, execAdd, execSub, execMul, execOr, execXor, execShl, execShr, aluStore, hr, hq, except_bind_ok,
          except_pure, finish_ok, Host.Outcome.next.injEq] at h
        subst h
        exact .inr ⟨rfl, .inl rfl, .inl rfl, .inl rfl, .inl rfl, .inl rfl⟩
      · simp only [exec, execAdd, execSub, execMul, execOr, execXor, execShl, execShr, aluStore, hr, hq, except_bind_ok,
          except_bind_error, finish_error, Host.Outcome.next.injEq] at h
        subst h
        exact .inl (entersFault_registerIndex hb)
    · simp only [exec, execAdd, execSub, execMul, execOr, execXor, execShl, execShr, aluStore, hr, except_bind_error,
        finish_error, Host.Outcome.next.injEq] at h
      subst h
      exact .inl (entersFault_registerIndex hb)

end Sys2Proof.Machine
end

