-- ==== Sys2Proof/Laws/Numerics.lean ====
section
/-! SUPPORT. The ALU's functions as integers. -/

namespace Sys2Proof.Machine

theorem trunc8_toNat (v : Int) : ((trunc8 v).toNat : Int) = v % 256 := by
  rw [trunc8, BitVec.toNat_ofInt]
  omega

theorem trunc8_nat (n : Nat) : (trunc8 (n : Int)).toNat = n % 256 := by
  have := trunc8_toNat (n : Int)
  omega

theorem aluAdd_toNat (A B : Byte) : (aluAdd A B).toNat = (A.toNat + B.toNat) % 256 := by
  rw [aluAdd, ← Int.natCast_add, trunc8_nat]

theorem aluSub_toNat (A B : Byte) : ((aluSub A B).toNat : Int) = ((A.toNat : Int) - B.toNat) % 256 := trunc8_toNat _

theorem aluMul_toNat (A B : Byte) : (aluMul A B).toNat = A.toNat * B.toNat % 256 := by
  rw [aluMul, ← Int.natCast_mul, trunc8_nat]

theorem aluDiv_toNat (A B : Byte) : (aluDiv A B).toNat = A.toNat / B.toNat := by
  rw [aluDiv, trunc8_nat]
  exact Nat.mod_eq_of_lt (lt_of_le_of_lt (Nat.div_le_self _ _) A.isLt)

theorem aluMod_toNat (A B : Byte) : (aluMod A B).toNat = A.toNat % B.toNat := by
  rw [aluMod, trunc8_nat]
  exact Nat.mod_eq_of_lt (lt_of_le_of_lt (Nat.mod_le _ _) A.isLt)

theorem aluShl_toNat (A B : Byte) : (aluShl A B).toNat = A.toNat * 2 ^ B.toNat % 256 := by
  rw [aluShl, trunc8_nat]

theorem aluShr_toNat (A B : Byte) : (aluShr A B).toNat = A.toNat / 2 ^ B.toNat := by
  rw [aluShr, trunc8_nat]
  exact Nat.mod_eq_of_lt (lt_of_le_of_lt (Nat.div_le_self _ _) A.isLt)

end Sys2Proof.Machine
end

