-- ==== Sys2Proof/Laws/PerInstr.lean ====
section
/-! SUPPORT. The family EncodedLength: an encoded instruction has one to three bytes, and as many as bits 7:6 of its opcode
byte say (R70, R78). -/

namespace Sys2Proof.Laws.EncodedLength

/-- The bytes of an instruction are as many as its opcode byte says, at least one and at most three. -/
def Statement (i : Instr) : Prop := (encode i).length = i.length ∧ 1 ≤ i.length ∧ i.length ≤ 3

/-- The statement from an opcode byte, its operand count field and the operand bytes. -/
theorem of_opcode {i : Instr} (op : Byte) (hop : i.opcode = op) (hlen : i.operands.length = operandCountField op)
    (h : operandCountField op ≤ 2) : Statement i := by
  subst hop
  exact ⟨congrArg (· + 1) hlen, Nat.le_add_left 1 _, Nat.succ_le_succ h⟩

theorem hlt : Statement .hlt := of_opcode 0x1#8 rfl rfl (by decide)
theorem ret : Statement .ret := of_opcode 0x11#8 rfl rfl (by decide)
theorem push (a : Byte) : Statement (.push a) := of_opcode 0x45#8 rfl rfl (by decide)
theorem pop (a : Byte) : Statement (.pop a) := of_opcode 0x46#8 rfl rfl (by decide)
theorem call (a : Byte) : Statement (.call a) := of_opcode 0x50#8 rfl rfl (by decide)
theorem jmp (a : Byte) : Statement (.jmp a) := of_opcode 0x54#8 rfl rfl (by decide)
theorem jeq (a : Byte) : Statement (.jeq a) := of_opcode 0x55#8 rfl rfl (by decide)
theorem jne (a : Byte) : Statement (.jne a) := of_opcode 0x56#8 rfl rfl (by decide)
theorem prn (a : Byte) : Statement (.prn a) := of_opcode 0x47#8 rfl rfl (by decide)
theorem pra (a : Byte) : Statement (.pra a) := of_opcode 0x48#8 rfl rfl (by decide)
theorem ldi (a v : Byte) : Statement (.ldi a v) := of_opcode 0x82#8 rfl rfl (by decide)
theorem cmp (a b : Byte) : Statement (.cmp a b) := of_opcode 0xA7#8 rfl rfl (by decide)
theorem add (a b : Byte) : Statement (.add a b) := of_opcode 0xA0#8 rfl rfl (by decide)
theorem sub (a b : Byte) : Statement (.sub a b) := of_opcode 0xA1#8 rfl rfl (by decide)
theorem mul (a b : Byte) : Statement (.mul a b) := of_opcode 0xA2#8 rfl rfl (by decide)
theorem div (a b : Byte) : Statement (.div a b) := of_opcode 0xA3#8 rfl rfl (by decide)
theorem mod (a b : Byte) : Statement (.mod a b) := of_opcode 0xA4#8 rfl rfl (by decide)
theorem or (a b : Byte) : Statement (.or a b) := of_opcode 0xAA#8 rfl rfl (by decide)
theorem xor (a b : Byte) : Statement (.xor a b) := of_opcode 0xAB#8 rfl rfl (by decide)
theorem shl (a b : Byte) : Statement (.shl a b) := of_opcode 0xAC#8 rfl rfl (by decide)
theorem shr (a b : Byte) : Statement (.shr a b) := of_opcode 0xAD#8 rfl rfl (by decide)

end Sys2Proof.Laws.EncodedLength
end

