-- ==== Sys2Proof/Laws/Step.lean ====
section
/-! SUPPORT. What a step does, said once: the three cases of a cycle, what a successful fetch read, and when a fetch faults. -/

namespace Sys2Proof.Machine

theorem step_not_enabled {s : State} (h : s.enabled = false) : step s = .next s := by
  simp [step, cycle, h]

theorem step_fetched {s : State} {i : Instr} (h : s.enabled = true) (hf : fetch s = .ok i) : step s = exec i s := by
  simp [step, cycle, h, hf]

theorem step_fetch_fault {s : State} {t : Trap} (h : s.enabled = true) (hf : fetch s = .error t) :
    step s = .next (s.takeFault t) := by
  simp [step, cycle, h, hf]

/-- The three cases of a step (R10): not enabled, a fault of the fetch, or the one fetched instruction. -/
theorem step_cases (s : State) :
    (s.enabled = false ∧ step s = .next s) ∨
    (s.enabled = true ∧ ∃ t, fetch s = .error t ∧ step s = .next (s.takeFault t)) ∨
    (s.enabled = true ∧ ∃ i, fetch s = .ok i ∧ step s = exec i s) := by
  cases h : s.enabled with
  | false => exact .inl ⟨rfl, step_not_enabled h⟩
  | true =>
    cases hf : fetch s with
    | error t => exact .inr (.inl ⟨rfl, t, rfl, step_fetch_fault h hf⟩)
    | ok i => exact .inr (.inr ⟨rfl, i, rfl, step_fetched h hf⟩)

theorem fetch_unary {s : State} {mk : Byte → Instr} (h : s.pc.toNat ≤ 255) (hl : lookup (s.byteAt s.pc.toNat) = some (.unary mk)) :
    fetch s = (memRead (s.pc.toNat + 1) s).map mk := by
  simp only [fetch, memRead_nat h, hl]
  cases memRead (s.pc.toNat + 1) s <;> rfl

theorem fetch_binary {s : State} {mk : Byte → Byte → Instr} (h : s.pc.toNat ≤ 255)
    (hl : lookup (s.byteAt s.pc.toNat) = some (.binary mk)) :
    fetch s = (memRead (s.pc.toNat + 1) s).bind fun a => (memRead (s.pc.toNat + 2) s).map (mk a) := by
  simp only [fetch, memRead_nat h, hl]
  rcases memRead (s.pc.toNat + 1) s with t | a
  · simp only [except_bind_error, Except.bind]
  · rcases memRead (s.pc.toNat + 2) s with t | b <;>
      simp only [except_bind_error, except_bind_ok, except_pure, Except.bind, Except.map]

theorem fetch_past_the_end {s : State} (h : 255 < s.pc.toNat) : fetch s = .error ⟨.address, s.pc.toNat⟩ := by
  simp only [fetch, memRead_nat_outside h]

theorem fetch_undefined {s : State} (h : s.pc.toNat ≤ 255) (hl : lookup (s.byteAt s.pc.toNat) = none) :
    fetch s = .error ⟨.unknownOpcode, (s.byteAt s.pc.toNat).toNat⟩ := by
  simp only [fetch, memRead_nat h, hl]

/-- Reading the byte at `pc + k`. -/
theorem memRead_offset {s : State} {k : Nat} (h : s.pc.toNat + k ≤ 255) :
    memRead ((s.pc.toNat : Int) + (k : Nat)) s = .ok (s.byteAt (s.pc.toNat + k)) := memRead_nat h s

theorem memRead_offset_outside {s : State} {k : Nat} (h : 255 < s.pc.toNat + k) :
    memRead ((s.pc.toNat : Int) + (k : Nat)) s = .error ⟨.address, (s.pc.toNat + k : Nat)⟩ := memRead_nat_outside h s

/-- What a fetch answers, said once (R91 to R93, R168): the address fault at the opcode, an undefined byte, the first missing
operand byte, or the instruction whose encoding lies at pc. -/
theorem fetch_cases (s : State) :
    (255 < s.pc.toNat ∧ fetch s = .error ⟨.address, s.pc.toNat⟩) ∨
    (s.pc.toNat ≤ 255 ∧ lookup (s.byteAt s.pc.toNat) = none ∧
      fetch s = .error ⟨.unknownOpcode, (s.byteAt s.pc.toNat).toNat⟩) ∨
    (s.pc.toNat ≤ 255 ∧ fetch s = .error ⟨.address, 256⟩ ∧
      ∃ f, lookup (s.byteAt s.pc.toNat) = some f ∧ 255 < s.pc.toNat + f.operandCount) ∨
    (∃ i, fetch s = .ok i ∧ s.pc.toNat + i.operands.length ≤ 255 ∧ i.opcode = s.byteAt s.pc.toNat ∧
      i.operands = (List.range i.operands.length).map fun k => s.byteAt (s.pc.toNat + 1 + k)) := by
  by_cases hpc : 255 < s.pc.toNat
  · exact .inl ⟨hpc, fetch_past_the_end hpc⟩
  have hpc' : s.pc.toNat ≤ 255 := by omega
  cases hl : lookup (s.byteAt s.pc.toNat) with
  | none => exact .inr (.inl ⟨hpc', rfl, fetch_undefined hpc' hl⟩)
  | some f =>
    refine .inr (.inr ?_)
    cases f with
    | nullary i =>
      have hi := lookup_nullary hl
      refine .inr ⟨i, by simp only [fetch, memRead_nat hpc', hl], ?_⟩
      simp only [hi.1, hi.2, List.length_nil, List.range_zero, List.map_nil]
      exact ⟨by omega, trivial, trivial⟩
    | unary mk =>
      by_cases h1 : s.pc.toNat + 1 ≤ 255
      · have hr := memRead_offset (k := 1) h1
        refine .inr ⟨mk (s.byteAt (s.pc.toNat + 1)), ?_, ?_⟩
        · rw [fetch_unary hpc' hl]
          simp only [Nat.cast_one] at hr
          rw [hr]; rfl
        · have hi := lookup_unary hl (s.byteAt (s.pc.toNat + 1))
          simp only [hi.1, hi.2, List.length_singleton]
          exact ⟨h1, trivial, rfl⟩
      · have hr := memRead_offset_outside (s := s) (k := 1) (by omega)
        refine .inl ⟨hpc', ?_, _, rfl, by simp only [Form.operandCount]; omega⟩
        rw [fetch_unary hpc' hl]
        simp only [Nat.cast_one] at hr
        rw [hr, show s.pc.toNat + 1 = 256 by omega]; rfl
    | binary mk =>
      by_cases h1 : s.pc.toNat + 1 ≤ 255
      · have hr1 := memRead_offset (k := 1) h1
        simp only [Nat.cast_one] at hr1
        by_cases h2 : s.pc.toNat + 2 ≤ 255
        · have hr2 := memRead_offset (k := 2) h2
          simp only [Nat.cast_ofNat] at hr2
          refine .inr ⟨mk (s.byteAt (s.pc.toNat + 1)) (s.byteAt (s.pc.toNat + 2)), ?_, ?_⟩
          · rw [fetch_binary hpc' hl, hr1, hr2]; rfl
          · have hi := lookup_binary hl (s.byteAt (s.pc.toNat + 1)) (s.byteAt (s.pc.toNat + 2))
            simp only [hi.1, hi.2, List.length_cons, List.length_nil]
            exact ⟨h2, trivial, rfl⟩
        · have hr2 := memRead_offset_outside (s := s) (k := 2) (by omega)
          simp only [Nat.cast_ofNat] at hr2
          refine .inl ⟨hpc', ?_, _, rfl, by simp only [Form.operandCount]; omega⟩
          rw [fetch_binary hpc' hl, hr1, hr2, show s.pc.toNat + 2 = 256 by omega]; rfl
      · have hr := memRead_offset_outside (s := s) (k := 1) (by omega)
        refine .inl ⟨hpc', ?_, _, rfl, by simp only [Form.operandCount]; omega⟩
        rw [fetch_binary hpc' hl]
        simp only [Nat.cast_one] at hr
        rw [hr, show s.pc.toNat + 1 = 256 by omega]; rfl

end Sys2Proof.Machine
end

