-- ==== Sys2Proof/Tests/Slice0.lean ====
section
/-! SUPPORT. Small tests. Expected results are the spec's own: the words of 30_encoding.md R72 and R77, and the vectors V2 to V8
of 95_test_vectors.md (the row is named by its instruction). After them, one witness for the hypotheses of each statement. -/

namespace Sys2Proof.Tests

open Sys2Proof Sys2Proof.Machine

/-- A state that differs from reset in a few registers, FL and pc, with bytes at pc. -/
def state (pc : PcWord) (bytes : List Byte) (writes : List (RegIdx × Byte) := []) (fl : FlagWord := 0#3)
    (mem : Memory := []) : State :=
  (writes.foldl (fun (s : State) w => s.setReg w.1 w.2) { State.reset with pc := pc, fl := fl, mem := mem }).placeAtPc bytes

/-- The next state of an outcome, if there is one. -/
def nextOf : Out → Option State
  | .next t => some t
  | .fault _ | .refused _ => none

/-- What a view shows of the state after one step. -/
def after {α : Type} (s : State) (view : State → α) : Option α := (nextOf (step s)).map view

/-- What the latch holds after one step. -/
def latched (s : State) : Option FaultRecord := (after s fun t => t.fault).join

/-! ## Decoding: each row of R77, its bytes written out bit by bit -/

theorem test_decode_hlt : decode [0b00000001#8] = .ok (.hlt, []) := by decide
theorem test_decode_ret : decode [0b00010001#8] = .ok (.ret, []) := by decide
theorem test_decode_push : decode [0b01000101#8, 0b00000011#8] = .ok (.push 3#8, []) := by decide
theorem test_decode_pop : decode [0b01000110#8, 0b00000011#8] = .ok (.pop 3#8, []) := by decide
theorem test_decode_call : decode [0b01010000#8, 0b00000011#8] = .ok (.call 3#8, []) := by decide
theorem test_decode_jmp : decode [0b01010100#8, 0b00000011#8] = .ok (.jmp 3#8, []) := by decide
theorem test_decode_jeq : decode [0b01010101#8, 0b00000011#8] = .ok (.jeq 3#8, []) := by decide
theorem test_decode_jne : decode [0b01010110#8, 0b00000011#8] = .ok (.jne 3#8, []) := by decide
theorem test_decode_prn : decode [0b01000111#8, 0b00000011#8] = .ok (.prn 3#8, []) := by decide
theorem test_decode_pra : decode [0b01001000#8, 0b00000011#8] = .ok (.pra 3#8, []) := by decide
theorem test_decode_ldi : decode [0b10000010#8, 0b00000011#8, 0b00000101#8] = .ok (.ldi 3#8 5#8, []) := by decide
theorem test_decode_cmp : decode [0b10100111#8, 0b00000011#8, 0b00000101#8] = .ok (.cmp 3#8 5#8, []) := by decide
theorem test_decode_add : decode [0b10100000#8, 0b00000011#8, 0b00000101#8] = .ok (.add 3#8 5#8, []) := by decide
theorem test_decode_sub : decode [0b10100001#8, 0b00000011#8, 0b00000101#8] = .ok (.sub 3#8 5#8, []) := by decide
theorem test_decode_mul : decode [0b10100010#8, 0b00000011#8, 0b00000101#8] = .ok (.mul 3#8 5#8, []) := by decide
theorem test_decode_div : decode [0b10100011#8, 0b00000011#8, 0b00000101#8] = .ok (.div 3#8 5#8, []) := by decide
theorem test_decode_mod : decode [0b10100100#8, 0b00000011#8, 0b00000101#8] = .ok (.mod 3#8 5#8, []) := by decide
theorem test_decode_or : decode [0b10101010#8, 0b00000011#8, 0b00000101#8] = .ok (.or 3#8 5#8, []) := by decide
theorem test_decode_xor : decode [0b10101011#8, 0b00000011#8, 0b00000101#8] = .ok (.xor 3#8 5#8, []) := by decide
theorem test_decode_shl : decode [0b10101100#8, 0b00000011#8, 0b00000101#8] = .ok (.shl 3#8 5#8, []) := by decide
theorem test_decode_shr : decode [0b10101101#8, 0b00000011#8, 0b00000101#8] = .ok (.shr 3#8 5#8, []) := by decide

theorem test_decode_zero_byte : decode [0x00#8, 0#8, 0#8] = .error (.unknownOpcode 0#8) := by decide
theorem test_decode_alu_pattern : decode [0xA8#8, 0#8, 0#8] = .error (.unknownOpcode 0xA8#8) := by decide
theorem test_decode_needs_operand_b : decode [0x82#8, 0#8] = .error (.missingOperand 2) := by decide
theorem test_decode_keeps_the_rest : decode [0x01#8, 0x47#8] = .ok (.hlt, [0x47#8]) := by decide
theorem test_encode_ldi : encode (.ldi 0#8 8#8) = [0x82#8, 0x00#8, 0x08#8] := by decide

/-- `LDI R0,8` is 82 00 08 (R85), the first byte in bits 7..0. -/
theorem test_table_word : decodeTableWord 24 0x080082 = some (.ldi 0#8 8#8) := by decide
theorem test_table_word_cut_to_its_bits : decodeTableWord 16 0x070347 = some (.prn 3#8) := by decide
theorem test_table_word_undefined : decodeTableWord 8 0x02 = none := by decide
theorem test_fetch_word_runs : after (State.reset.withFetchWord 24 0x080082) (fun t => (t.reg 0, t.pc)) = some (8#8, 3#9) := by
  decide

/-! ## WellFormed: each check with a term it refuses -/

theorem test_wellFormed_accepts : WellFormed (.ldi 7#8 255#8) = true := by decide
theorem test_wellFormed_refuses_operand_a : WellFormed (.push 8#8) = false := by decide
theorem test_wellFormed_refuses_alu_a : WellFormed (.add 8#8 0#8) = false := by decide
theorem test_wellFormed_refuses_alu_b : WellFormed (.cmp 7#8 8#8) = false := by decide

/-! ## Reset, loader, host -/

theorem test_reset_sp : State.reset.sp = 243#8 := by decide
theorem test_boot_too_long : (State.boot (List.replicate 257 1#8)).isNone = true := by
  rw [State.boot, State.loadImage, List.length_replicate]; rfl
theorem test_boot_bytes : (State.boot [0x82#8, 0#8, 8#8]).map (fun s => (s.mem.read 0, s.mem)) =
    some (0x82#8, [(0, 0x82#8), (2, 8#8)]) := by decide
/-- Scenario 1 of S2: PRN of 8 prints "8\n". -/
theorem test_render_prn : OutEvent.render ⟨.prn, 8#8⟩ = "8\n" := by decide
/-- V2: PRA of 0x48 prints "H". -/
theorem test_render_pra : OutEvent.render ⟨.pra, 0x48#8⟩ = "H" := by decide
theorem test_exit_status_halted : State.exitStatus { State.reset with running := false } = some 0 := by decide
theorem test_memory_canonical : Memory.write 4 0#8 (Memory.write 9 1#8 (Memory.write 4 7#8 [])) = [(9, 1#8)] := by decide

/-! ## One step: V2 -/

theorem test_ldi_last_place : after (state 0xFD [0x82, 0x00, 0x01]) (fun t => (t.reg 0, t.pc)) = some (1#8, 256#9) := by decide
theorem test_ldi_sets_sp : after (state 0 [0x82, 0x07, 0x20]) (fun t => (t.sp, t.fl)) = some (0x20#8, 0#3) := by decide
theorem test_prn : after (state 3 [0x47, 0x00] [(0, 8)]) (fun t => (t.out, t.pc)) = some ([⟨.prn, 8#8⟩], 5#9) := by decide
theorem test_prn_at_255 : latched (state 0xFF [0x47]) = some ⟨.address, 0xFF#9, 256⟩ := by decide
theorem test_pra : after (state 0 [0x48, 0x02] [(2, 0xE9)]) (fun t => (t.out, t.pc)) = some ([⟨.pra, 233#8⟩], 2#9) := by decide
theorem test_hlt : after (state 5 [0x01]) (fun t => (t.running, t.pc)) = some (false, 6#9) := by decide
theorem test_hlt_at_255 : after (state 0xFF [0x01]) (fun t => (t.running, t.fault, t.pc)) = some (false, none, 256#9) := by decide

/-! ## One step: V3 to V5 -/

theorem test_add_wraps : after (state 0 [0xA0, 0, 1] [(0, 0xC8), (1, 0x64)]) (fun t => (t.reg 0, t.pc)) = some (0x2C#8, 3#9) := by
  decide
theorem test_add_keeps_flags : after (state 0 [0xA0, 0, 1] [(0, 0xFF), (1, 1)] 0b100#3) (fun t => (t.reg 0, t.fl)) =
    some (0#8, 0b100#3) := by decide
theorem test_sub_borrows : after (state 0 [0xA1, 0, 1] [(0, 5), (1, 10)]) (fun t => (t.reg 0, t.reg 1)) = some (0xFB#8, 10#8) := by
  decide
theorem test_sub_sp_wraps : after (state 0 [0xA1, 7, 0] [(0, 0xF4)]) (fun t => (t.sp, t.fault)) = some (0xFF#8, none) := by decide
theorem test_mul_low_byte : after (state 0 [0xA2, 0, 1] [(0, 0xFF), (1, 0xFF)]) (fun t => t.reg 0) = some 1#8 := by decide
theorem test_div_floors : after (state 0 [0xA3, 0, 1] [(0, 0xFA), (1, 3)]) (fun t => t.reg 0) = some 0x53#8 := by decide
theorem test_div_by_zero : after (state 8 [0xA3, 0, 1] [(0, 9)]) (fun t => (t.fault, t.reg 0, t.pc, t.running)) =
    some (some ⟨.arithmetic, 8#9, 8⟩, 9#8, 8#9, true) := by decide
theorem test_mod : after (state 0 [0xA4, 0, 1] [(0, 0xFF), (1, 0x10)]) (fun t => t.reg 0) = some 0x0F#8 := by decide
theorem test_mod_by_zero : latched (state 0 [0xA4, 0, 1] [(0, 9)]) = some ⟨.arithmetic, 0#9, 0⟩ := by decide
theorem test_index_before_zero_divisor : latched (state 0 [0xA3, 9, 1]) = some ⟨.registerIndex, 0#9, 9⟩ := by decide
theorem test_or : after (state 0 [0xAA, 0, 1] [(0, 0x0F), (1, 0x3C)]) (fun t => t.reg 0) = some 0x3F#8 := by decide
theorem test_xor : after (state 0 [0xAB, 0, 1] [(0, 0xCC), (1, 0xAA)]) (fun t => t.reg 0) = some 0x66#8 := by decide
theorem test_shl : after (state 0 [0xAC, 0, 1] [(0, 0x2C), (1, 3)]) (fun t => t.reg 0) = some 0x60#8 := by decide
theorem test_shl_count_255 : after (state 0 [0xAC, 0, 1] [(0, 0xFF), (1, 0xFF)]) (fun t => t.reg 0) = some 0#8 := by decide
theorem test_shr : after (state 0 [0xAD, 0, 1] [(0, 0xB4), (1, 2)]) (fun t => t.reg 0) = some 0x2D#8 := by decide
theorem test_shr_count_8 : after (state 0 [0xAD, 0, 1] [(0, 0xFF), (1, 8)]) (fun t => t.reg 0) = some 0#8 := by decide
theorem test_cmp_less : after (state 0 [0xA7, 0, 1] [(0, 3), (1, 5)] 0b001#3) (fun t => (t.fl, t.pc)) = some (0b100#3, 3#9) := by
  decide
theorem test_cmp_unsigned : after (state 0 [0xA7, 0, 1] [(0, 0x80), (1, 0x7F)]) (fun t => (t.fl, t.reg 0)) =
    some (0b010#3, 0x80#8) := by decide

/-! ## One step: V6 -/

theorem test_push : after (state 0x0B [0x45, 0x01] [(1, 0x0B), (7, 0xF2)]) (fun t => (t.sp, t.byteAt 0xF1, t.pc)) =
    some (0xF1#8, 0x0B#8, 0x0D#9) := by decide
theorem test_push_r7 : after (state 0 [0x45, 0x07]) (fun t => (t.sp, t.byteAt 0xF2)) = some (0xF2#8, 0xF2#8) := by decide
theorem test_push_sp_zero : latched (state 0x10 [0x45, 0x00] [(0, 0x99), (7, 0)]) = some ⟨.address, 0x10#9, -1⟩ := by decide
theorem test_pop : after (state 0x13 [0x46, 0x01] [(7, 0xF1)] 0#3 [(0xF1, 0x0B#8)]) (fun t => (t.reg 1, t.sp, t.byteAt 0xF1)) =
    some (0x0B#8, 0xF2#8, 0x0B#8) := by decide
theorem test_pop_r7 : after (state 0 [0x46, 0x07] [(7, 0xFF)] 0#3 [(0xFF, 0x10#8)]) (fun t => (t.sp, t.pc)) =
    some (0x11#8, 2#9) := by decide
theorem test_call : after (state 6 [0x50, 0x01] [(1, 0x0B)]) (fun t => (t.sp, t.byteAt 0xF2, t.pc)) =
    some (0xF2#8, 8#8, 0x0B#9) := by decide
theorem test_call_return_address_checked_first : latched (state 0xFE [0x50, 0x00] [(0, 0x30), (7, 0)]) =
    some ⟨.address, 0xFE#9, 256⟩ := by decide
theorem test_ret : after (state 0x15 [0x11] [(7, 0xF2)] 0#3 [(0xF2, 8#8)]) (fun t => (t.pc, t.sp)) = some (8#9, 0xF3#8) := by
  decide
theorem test_ret_sp_255 : latched (state 0 [0x11] [(7, 0xFF)] 0#3 [(0xFF, 0x21#8)]) = some ⟨.address, 0#9, 256⟩ := by decide

/-! ## One step: V7 and V8 -/

theorem test_jmp : after (state 0x17 [0x54, 0x03] [(3, 0x0F)]) (fun t => t.pc) = some 0x0F#9 := by decide
theorem test_jeq_taken : after (state 0x12 [0x55, 0x04] [(4, 0x19)] 0b001#3) (fun t => t.pc) = some 0x19#9 := by decide
theorem test_jeq_not_taken_at_254 : after (state 0xFE [0x55, 0x00] [(0, 0x10)]) (fun t => t.pc) = some 256#9 := by decide
theorem test_jne_taken_at_reset_flags : after (state 5 [0x56, 0x00] [(0, 8)]) (fun t => t.pc) = some 8#9 := by decide
theorem test_jne_not_taken : after (state 5 [0x56, 0x00] [(0, 8)] 0b001#3) (fun t => t.pc) = some 7#9 := by decide
theorem test_unknown_before_operand_address : latched (state 0xFF [0xA8]) = some ⟨.unknownOpcode, 0xFF#9, 168⟩ := by decide
theorem test_fetch_at_256 : latched (state 256 []) = some ⟨.address, 256#9, 256⟩ := by decide

/-! ## Witnesses: states and operands that meet the hypotheses of each statement, at boundary values -/

theorem witness_opcodeFields : lookup 0xAD#8 = some (.binary .shr) := rfl

theorem witness_stepRuns : (state 0xFE [0x47, 0x07]).enabled = true ∧
    decode (state 0xFE [0x47, 0x07]).bytesFromPc = .ok (.prn 7#8, []) := by decide

theorem witness_placed : State.enabled { State.reset with pc := 0xFD#9 } = true ∧
    Memory.wf ({ State.reset with pc := 0xFD#9 } : State).mem = true ∧ (0xFD#9).toNat + (encode (.add 1#8 2#8)).length ≤ 256 := by
  decide

theorem witness_disabled_halted : ({ State.reset with running := false } : State).running = false := rfl

theorem witness_disabled_faulted : (State.reset.takeFault ⟨.address, 256⟩).fault ≠ none := by decide

theorem witness_fetchPast : (state 256 []).enabled = true ∧ 255 < (state 256 []).pc.toNat := by decide

theorem witness_undefined_first : (state 0 [0x00]).enabled = true ∧ (state 0 [0x00]).pc.toNat ≤ 255 ∧
    (state 0 [0x00]).byteAt 0 ∉ definedOpcodes := by decide

theorem witness_undefined_last : (state 0xFF [0xFF]).enabled = true ∧ (state 0xFF [0xFF]).pc.toNat ≤ 255 ∧
    (state 0xFF [0xFF]).byteAt 255 ∉ definedOpcodes ∧
    step (state 0xFF [0xFF]) = .next ((state 0xFF [0xFF]).takeFault ⟨.unknownOpcode, 255⟩) := by
  refine ⟨by decide, by decide, by decide, rfl⟩

theorem witness_illegalRegister_a : (Instr.add 8#8 9#8).regOperands.find? (fun c => !legalRegByte c) = some 8#8 := by decide

theorem witness_illegalRegister_b : (Instr.add 7#8 255#8).regOperands.find? (fun c => !legalRegByte c) = some 255#8 := by decide

theorem witness_precise : step State.reset = .next (State.reset.takeFault ⟨.unknownOpcode, 0⟩) ∧
    (State.reset.takeFault ⟨.unknownOpcode, 0⟩).fault ≠ State.reset.fault := ⟨rfl, by decide⟩

theorem witness_unsupportedAlu : step (State.reset.takeFault ⟨.unsupportedAluOperation, 0⟩) =
      .next (State.reset.takeFault ⟨.unsupportedAluOperation, 0⟩) ∧
    (State.reset.takeFault ⟨.unsupportedAluOperation, 0⟩).fault = some ⟨.unsupportedAluOperation, 0#9, 0⟩ := ⟨rfl, rfl⟩

theorem witness_pcAdvances : (state 0xFD [0x82, 0, 1]).enabled = true ∧ fetch (state 0xFD [0x82, 0, 1]) = .ok (.ldi 0#8 1#8) ∧
    setsPcField (Instr.ldi 0#8 1#8).opcode = false ∧
    exec (.ldi 0#8 1#8) (state 0xFD [0x82, 0, 1]) = .next (((state 0xFD [0x82, 0, 1]).setReg 0 1#8).advance 3) ∧
    (((state 0xFD [0x82, 0, 1]).setReg 0 1#8).advance 3).fault = none := ⟨by decide, by decide, by decide, rfl, rfl⟩

theorem witness_pcStays : (state 256 []).pc.toNat ≤ 256 ∧ step (state 256 []) = .next ((state 256 []).takeFault ⟨.address, 256⟩) :=
  ⟨by decide, rfl⟩

theorem witness_resetValues_empty : ([] : List Byte).length ≤ 256 ∧ ([] : List Byte).length ≤ 0 ∧ 0 < 256 := by decide

theorem witness_resetValues_full : (List.replicate 256 1#8).length ≤ 256 ∧ 255 < (List.replicate 256 1#8).length := by
  rw [List.length_replicate]; omega

theorem witness_resetInvariant : State.boot [] = some State.reset := by decide

theorem witness_inv : State.Inv State.reset :=
  ⟨by decide, by decide, by decide, by decide, fun _ h => nomatch h⟩

theorem witness_stepKeepsInvariant : State.Inv State.reset ∧ step State.reset = .next (State.reset.takeFault ⟨.unknownOpcode, 0⟩) :=
  ⟨witness_inv, rfl⟩

theorem witness_memRead : ((-1 : Int) < 0 ∨ (-1 : Int) > 255) ∧ ((256 : Int) < 0 ∨ (256 : Int) > 255) ∧
    (0 : Int) ≤ 0 ∧ (255 : Int) ≤ 255 := by decide

theorem witness_memWrite : State.reset.mem.wf = true ∧ ((-1 : Int) < 0 ∨ (-1 : Int) > 255) ∧
    (0 : Int) ≤ 255 ∧ (255 : Int) ≤ 255 := by decide

theorem witness_equalCells : Memory.wf [(0, 1#8), (255, 2#8)] = true ∧
    ∀ a, a < 256 → Memory.read [(0, 1#8), (255, 2#8)] a = Memory.read [(0, 1#8), (255, 2#8)] a := ⟨by decide, fun _ _ => rfl⟩

theorem witness_onlyPushAndCall : (state 0 [] [(0, 0xAB)]).mem.wf = true ∧
    (nextOf (exec (.push 0#8) (state 0 [] [(0, 0xAB)]))).map (fun t => t.byteAt 0xF2) = some 0xAB#8 ∧
    (state 0 [] [(0, 0xAB)]).byteAt 0xF2 = 0#8 := by decide

theorem witness_pushedByte_undefined : (0 : RegIdx) ≠ 7 ∧ (state 252 [] [(7, 255)]).enabled = true ∧
    (state 252 [] [(7, 255)]).mem.wf = true ∧ (state 252 [] [(7, 255)]).sp.toNat = (state 252 [] [(7, 255)]).pc.toNat + 3 ∧
    (state 252 [] [(7, 255)]).reg 0 ∉ definedOpcodes := by decide

theorem witness_pushedByte_hlt : (0 : RegIdx) ≠ 7 ∧ (state 0 [] [(7, 3), (0, 1)]).enabled = true ∧
    (state 0 [] [(7, 3), (0, 1)]).mem.wf = true ∧
    (state 0 [] [(7, 3), (0, 1)]).sp.toNat = (state 0 [] [(7, 3), (0, 1)]).pc.toNat + 3 ∧
    (state 0 [] [(7, 3), (0, 1)]).reg 0 = 0x01#8 := by decide

theorem witness_flags_written : (nextOf (exec (.cmp 0#8 1#8) State.reset)).map (fun t => t.fl) = some 0b001#3 ∧
    (0b001#3 : FlagWord) ≠ State.reset.fl := by decide

theorem witness_flags_read : flagE 0b110#3 = flagE State.reset.fl := by decide

theorem witness_flags_unread : (∀ a b, Instr.hlt ≠ .cmp a b) ∧ (∀ a, Instr.hlt ≠ .jeq a) ∧ (∀ a, Instr.hlt ≠ .jne a) :=
  ⟨fun _ _ => by simp, fun _ => by simp, fun _ => by simp⟩

theorem witness_running_written : exec .hlt State.reset = .next (State.reset.halt.advance 1) ∧
    (State.reset.halt.advance 1).running ≠ State.reset.running := ⟨rfl, by decide⟩

theorem witness_running_unread : (Instr.ret : Instr) ≠ .hlt := by decide

theorem witness_output : (nextOf (step (state 0 [0x47, 0x07]))).map (fun t => t.out) = some [⟨.prn, 243#8⟩] := by decide

/-- Every instruction with an operand byte lacks one at 255, and every three-byte one at 254 (the step clauses of the
instruction statements). -/
theorem witness_truncated_at_255 : ∀ op ∈ definedOpcodes,
    (state 255 [op]).enabled = true ∧ 254 < (state 255 [op]).pc.toNat ∧ (state 255 [op]).pc.toNat ≤ 255 ∧
    (state 255 [op]).byteAt 255 = op := by decide

theorem witness_truncated_at_254 : ∀ op ∈ definedOpcodes,
    (state 254 [op]).enabled = true ∧ 253 < (state 254 [op]).pc.toNat ∧ (state 254 [op]).pc.toNat ≤ 255 ∧
    (state 254 [op]).byteAt 254 = op := by decide

/-- The register-operand clauses of the instruction statements, at the first illegal byte. -/
theorem witness_index : 7 < (8#8).toNat ∧ (7#8).toNat ≤ 7 := by decide

theorem witness_hlt : exec .hlt (state 255 [0x01]) = .next ((state 255 [0x01]).halt.advance 1) ∧
    (state 255 [0x01]).enabled = true ∧ (state 255 [0x01]).pc.toNat ≤ 255 ∧ (state 255 [0x01]).byteAt 255 = 0x01#8 := by
  refine ⟨rfl, by decide, by decide, by decide⟩

/-- DIV, MOD, one division and one register as both operands: a divisor that is not zero, and one that is. -/
theorem witness_divisor : State.reset.reg 7 ≠ 0#8 ∧ State.reset.reg 0 = 0#8 := by decide

/-- A shift count of 8, the first that empties the byte. -/
theorem witness_shift_count : 8 ≤ (8#8).toNat := by decide

theorem witness_push : (state 0 [] [(7, 1)]).mem.wf = true ∧ 0 < (state 0 [] [(7, 1)]).sp.toNat ∧
    (state 0 [] [(7, 0)]).sp.toNat = 0 := by decide

theorem witness_pop : (6 : RegIdx) ≠ 7 ∧ (state 0 [] [(7, 254)]).sp.toNat < 255 ∧ (state 0 [] [(7, 255)]).sp.toNat = 255 := by
  decide

theorem witness_pop_r7 : ((state 0 [] [] 0#3 [(0xF3, 254#8)]).byteAt (state 0 [] [] 0#3 [(0xF3, 254#8)]).sp.toNat).toNat < 255 ∧
    ((state 0 [] [] 0#3 [(0xF3, 255#8)]).byteAt (state 0 [] [] 0#3 [(0xF3, 255#8)]).sp.toNat).toNat = 255 := by decide

theorem witness_call : (state 253 [] [(7, 1)]).mem.wf = true ∧ (state 253 [] [(7, 1)]).pc.toNat ≤ 253 ∧
    0 < (state 253 [] [(7, 1)]).sp.toNat ∧ 253 < (state 254 []).pc.toNat ∧
    (state 253 [] [(7, 0)]).pc.toNat ≤ 253 ∧ (state 253 [] [(7, 0)]).sp.toNat = 0 := by decide

theorem witness_ret : (state 0 [] [(7, 254)]).sp.toNat < 255 ∧ (state 0 [] [(7, 255)]).sp.toNat = 255 ∧
    (state 255 [0x11]).enabled = true ∧ (state 255 [0x11]).pc.toNat ≤ 255 ∧ (state 255 [0x11]).byteAt 255 = 0x11#8 := by decide

theorem witness_pushThenPop : (6 : RegIdx) ≠ 7 ∧ (state 0 [] [(7, 1)]).mem.wf = true ∧ 0 < (state 0 [] [(7, 1)]).sp.toNat := by
  decide

/-- The subroutine of CallThenRetReturns that returns at once. -/
theorem witness_callThenRet : (nextOf (exec (.call 0#8) (state 253 [] [(7, 1)]))).map
      (fun t => (t.sp, t.byteAt t.sp.toNat)) = some (0#8, 255#8) ∧
    (state 253 [] [(7, 1)]).mem.wf = true ∧ (state 253 [] [(7, 1)]).pc.toNat ≤ 253 ∧ 0 < (state 253 [] [(7, 1)]).sp.toNat := by
  decide

theorem witness_conditions : flagE (state 0 [] [] 0b001#3).fl = true ∧ flagE (state 0 [] [] 0b100#3).fl = false ∧
    (∀ a b, Instr.jne 0#8 ≠ .cmp a b) ∧ flagE 0b110#3 = flagE State.reset.fl := by
  exact ⟨by decide, by decide, fun _ _ => by simp, by decide⟩

end Sys2Proof.Tests
end

