-- ==== Sys2Proof/Proofs/Flags.lean ====
section
/-! SUPPORT. Who writes FL and who reads it (R29). That an instruction reads no flag is a commuting square: run after the flags
are overwritten, it answers what it answers without that, with the flags overwritten in the next state. The square is proved
once for each shared form of a handler and assembled in `exec_setFlags`. -/

namespace Sys2Proof.Machine

/-- FL set in the next state of an outcome. -/
def outSetFlags (f : FlagWord) : Out → Out := onNext fun t => t.setFlags f

variable (f : FlagWord) (s : State)

/-! ## The end of a step -/

/-- A step of a handler whose computation does not look at the flags: the square holds if it holds of what follows, since a
trap is entered without a look at FL. -/
theorem finish_bind_setFlags {α : Type} (x : Except Trap α) {k k' : α → Except Trap State}
    (h : ∀ v, finish (s.setFlags f) (k' v) = outSetFlags f (finish s (k v))) :
    finish (s.setFlags f) (x >>= k') = outSetFlags f (finish s (x >>= k)) := by
  cases x with
  | error t => rfl
  | ok v => exact h v

/-! ## The shared forms and the other handlers -/

theorem aluStore_setFlags (op : Byte → Byte → Byte) (a b : Byte) :
    aluStore op a b (s.setFlags f) = outSetFlags f (aluStore op a b s) :=
  finish_bind_setFlags f s _ fun _ => finish_bind_setFlags f s _ fun _ => rfl

theorem aluDivide_setFlags (op : Byte → Byte → Byte) (a b : Byte) :
    aluDivide op a b (s.setFlags f) = outSetFlags f (aluDivide op a b s) := by
  refine finish_bind_setFlags f s _ fun ra => finish_bind_setFlags f s _ fun rb => ?_
  rw [State.setFlags_reg]
  split <;> rfl

theorem jumpIf_setFlags (taken : Bool) (a : Byte) :
    jumpIf taken a (s.setFlags f) = outSetFlags f (jumpIf taken a s) := by
  refine finish_bind_setFlags f s _ fun r => ?_
  cases taken <;> rfl

theorem emitRegister_setFlags (k : OutKind) (a : Byte) :
    emitRegister k a (s.setFlags f) = outSetFlags f (emitRegister k a s) :=
  finish_bind_setFlags f s _ fun _ => rfl

theorem execLdi_setFlags (a v : Byte) : execLdi a v (s.setFlags f) = outSetFlags f (execLdi a v s) :=
  finish_bind_setFlags f s _ fun _ => rfl

theorem execPush_setFlags (a : Byte) : execPush a (s.setFlags f) = outSetFlags f (execPush a s) := by
  refine finish_bind_setFlags f s _ fun r => finish_bind_setFlags f s _ fun sp1 => ?_
  simp only [memWrite_byte]
  rfl

theorem execPop_setFlags (a : Byte) : execPop a (s.setFlags f) = outSetFlags f (execPop a s) :=
  finish_bind_setFlags f s _ fun _ => finish_bind_setFlags f s _ fun _ => finish_bind_setFlags f s _ fun _ => rfl

theorem execCall_setFlags (a : Byte) : execCall a (s.setFlags f) = outSetFlags f (execCall a s) := by
  refine finish_bind_setFlags f s _ fun r => finish_bind_setFlags f s _ fun ret =>
    finish_bind_setFlags f s _ fun sp1 => ?_
  simp only [memWrite_byte]
  rfl

theorem execRet_setFlags : execRet (s.setFlags f) = outSetFlags f (execRet s) :=
  finish_bind_setFlags f s _ fun _ => finish_bind_setFlags f s _ fun _ => rfl

/-! ## All instructions -/

/-- Every instruction but CMP passes any FL on, and acts the same on all FL, or for JEQ and JNE on all FL with the same E. -/
theorem exec_setFlags (i : Instr) (hcmp : ∀ a b, i ≠ .cmp a b)
    (hE : (∃ a, i = .jeq a ∨ i = .jne a) → flagE f = flagE s.fl) :
    exec i (s.setFlags f) = outSetFlags f (exec i s) := by
  cases i with
  | hlt => rfl
  | ret => exact execRet_setFlags f s
  | push a => exact execPush_setFlags f s a
  | pop a => exact execPop_setFlags f s a
  | call a => exact execCall_setFlags f s a
  | jmp a => exact jumpIf_setFlags f s true a
  | jeq a =>
    simp only [exec, execJeq, State.setFlags_fl, hE ⟨a, .inl rfl⟩]
    exact jumpIf_setFlags f s _ a
  | jne a =>
    simp only [exec, execJne, State.setFlags_fl, hE ⟨a, .inr rfl⟩]
    exact jumpIf_setFlags f s _ a
  | prn a | pra a => exact emitRegister_setFlags f s _ a
  | ldi a v => exact execLdi_setFlags f s a v
  | cmp a b => exact absurd rfl (hcmp a b)
  | div a b | mod a b => exact aluDivide_setFlags f s _ a b
  | add a b | sub a b | mul a b | or a b | xor a b | shl a b | shr a b => exact aluStore_setFlags f s _ a b

/-- CMP of two registers overwrites whatever FL held. -/
theorem exec_cmp_setFlags (a b : RegIdx) :
    exec (.cmp (regByte a) (regByte b)) (s.setFlags f) = exec (.cmp (regByte a) (regByte b)) s := by
  simp only [exec, execCmp, regIndex_regByte, except_bind_ok]
  rfl

/-- A changed FL is CMP's: entering a fault keeps FL, and so does committing any other instruction. -/
theorem exec_fl_changed {i : Instr} {s t : State} (h : exec i s = .next t) (hfl : t.fl ≠ s.fl) : ∃ a b, i = .cmp a b := by
  rcases exec_cases i s t h with hf | hc
  · obtain ⟨tr, rfl, -⟩ := hf.entry
    exact absurd rfl hfl
  · rcases hc.fl with hsame | ⟨hcmp, -⟩
    · exact absurd hsame hfl
    · exact hcmp

end Sys2Proof.Machine

namespace Sys2Proof.Proofs

open Sys2Proof Sys2Proof.Machine

/-- Settles O22: FL changes by CMP only (`exec_fl_changed`), CMP overwrites it (`exec_cmp_setFlags`), and every other
instruction commutes with a change of FL, JEQ and JNE with one that keeps E (`exec_setFlags`). -/
theorem flagsWrittenByCmpReadByJumps : Obligations.FlagsWrittenByCmpReadByJumps := by
  unfold Obligations.FlagsWrittenByCmpReadByJumps
  refine ⟨fun i s t => exec_fl_changed, fun a b s f => exec_cmp_setFlags f s a b, fun a s f hE => ⟨?_, ?_⟩, ?_⟩
  · exact exec_setFlags f s (.jeq a) (fun _ _ => Instr.noConfusion) fun _ => hE
  · exact exec_setFlags f s (.jne a) (fun _ _ => Instr.noConfusion) fun _ => hE
  · intro i s f hcmp hjeq hjne
    refine exec_setFlags f s i hcmp ?_
    rintro ⟨a, h | h⟩
    · exact absurd h (hjeq a)
    · exact absurd h (hjne a)

end Sys2Proof.Proofs
end

