-- ==== Sys2Proof/Proofs/MemoryAccess.lean ====
section
/-! SUPPORT. The two memory primitives at an arbitrary integer address (R51, R52): outside 0..255 both answer AddressError;
inside, the address is a byte's value and `memRead_byte`, `memWrite_byte` apply. -/

namespace Sys2Proof.Machine

/-- An integer inside the address space is the value of a byte. -/
theorem exists_byte_toNat_eq {a : Int} (h0 : 0 ≤ a) (h1 : a ≤ 255) : ∃ c : Byte, (c.toNat : Int) = a := by
  rcases checkAddr_cases a with ⟨c, -, hc⟩ | ⟨hout, -⟩
  · exact ⟨c, hc⟩
  · omega

theorem memRead_outside {a : Int} (h : a < 0 ∨ 255 < a) (s : State) : memRead a s = .error ⟨.address, a⟩ := by
  rw [memRead, checkAddr_outside h]

theorem memWrite_outside {a : Int} (h : a < 0 ∨ 255 < a) (v : Byte) (s : State) :
    memWrite a v s = .error ⟨.address, a⟩ := by
  rw [memWrite, checkAddr_outside h]

theorem memRead_inside {a : Int} (h0 : 0 ≤ a) (h1 : a ≤ 255) (s : State) : memRead a s = .ok (s.byteAt a.toNat) := by
  obtain ⟨c, rfl⟩ := exists_byte_toNat_eq h0 h1
  exact memRead_byte c s

theorem memWrite_inside {a : Int} (h0 : 0 ≤ a) (h1 : a ≤ 255) (v : Byte) (s : State) :
    memWrite a v s = .ok { s with mem := s.mem.write a.toNat v } := by
  obtain ⟨c, rfl⟩ := exists_byte_toNat_eq h0 h1
  exact memWrite_byte c v s

/-- The cells of a canonical memory after one of them is written. -/
theorem State.byteAt_write {s : State} (h : s.mem.wf = true) (a i : Nat) (v : Byte) :
    ({ s with mem := s.mem.write a v } : State).byteAt i = if i = a then v else s.byteAt i :=
  Memory.read_write h a i v

end Sys2Proof.Machine

namespace Sys2Proof.Proofs

open Sys2Proof Sys2Proof.Machine

/-- Settles O17: the two sides of the bounds check are `memRead_outside` and `memRead_inside`. -/
theorem memReadRule : Obligations.MemReadRule := by
  unfold Obligations.MemReadRule
  exact fun a s => ⟨fun hout => memRead_outside hout s, fun h0 h1 => memRead_inside h0 h1 s⟩

/-- Settles O18: inside the address space the next state is the old one with one cell written, so its cells are read by
`State.byteAt_write` and its memory is canonical by `Memory.wf_write`. -/
theorem memWriteRule : Obligations.MemWriteRule := by
  unfold Obligations.MemWriteRule
  intro a v s hwf
  refine ⟨fun hout => memWrite_outside hout v s, fun h0 h1 => ⟨_, memWrite_inside h0 h1 v s, ?_, ?_, rfl, ?_⟩⟩
  · rw [State.byteAt_write hwf, if_pos rfl]
  · intro i hi
    rw [State.byteAt_write hwf, if_neg hi]
  · exact Memory.wf_write v (by omega) hwf

end Sys2Proof.Proofs
end

