-- ==== Sys2Proof/Proofs/ConditionalJumps.lean ====
section
/-! SUPPORT. The three jumps at a legal register: JEQ and JNE are each JMP or a fall through, and FL.E alone says which
(R150 to R154). That no other flag is consulted, by them or by any instruction, is `exec_setFlags`. -/

namespace Sys2Proof.Machine

variable (r : RegIdx) (s : State)

theorem exec_jmp_eq_jumpIf (a : Byte) : exec (.jmp a) s = jumpIf true a s := rfl

theorem exec_jeq_eq_jumpIf (a : Byte) : exec (.jeq a) s = jumpIf (flagE s.fl) a s := rfl

theorem exec_jne_eq_jumpIf (a : Byte) : exec (.jne a) s = jumpIf (!flagE s.fl) a s := rfl

/-- A jump not taken falls through past its two bytes. -/
theorem jumpIf_false : jumpIf false (regByte r) s = .next { s with pc := s.pc + 2#9 } := by
  rw [jumpIf, regIndex_regByte]
  rfl

variable {s}

theorem exec_jeq_of_flagE_set (hE : flagE s.fl = true) : exec (.jeq (regByte r)) s = exec (.jmp (regByte r)) s := by
  rw [exec_jeq_eq_jumpIf, hE, exec_jmp_eq_jumpIf]

theorem exec_jeq_of_flagE_clear (hE : flagE s.fl = false) :
    exec (.jeq (regByte r)) s = .next { s with pc := s.pc + 2#9 } := by
  rw [exec_jeq_eq_jumpIf, hE, jumpIf_false]

theorem exec_jne_of_flagE_set (hE : flagE s.fl = true) :
    exec (.jne (regByte r)) s = .next { s with pc := s.pc + 2#9 } := by
  rw [exec_jne_eq_jumpIf, hE, Bool.not_true, jumpIf_false]

theorem exec_jne_of_flagE_clear (hE : flagE s.fl = false) : exec (.jne (regByte r)) s = exec (.jmp (regByte r)) s := by
  rw [exec_jne_eq_jumpIf, hE, Bool.not_false, exec_jmp_eq_jumpIf]

end Sys2Proof.Machine

namespace Sys2Proof.Proofs

open Sys2Proof Sys2Proof.Machine

/-- Settles O50: E decides each conditional jump between JMP and the fall through (the four `exec_jeq_of_…` and
`exec_jne_of_…` lemmas), and every instruction but CMP commutes with a change of FL that keeps E (`exec_setFlags`). -/
theorem conditionalJumpsAreComplements : Obligations.ConditionalJumpsAreComplements := by
  unfold Obligations.ConditionalJumpsAreComplements
  refine ⟨fun r s hE => ⟨exec_jeq_of_flagE_set r hE, exec_jne_of_flagE_set r hE⟩,
    fun r s hE => ⟨exec_jne_of_flagE_clear r hE, exec_jeq_of_flagE_clear r hE⟩, ?_, ?_⟩
  · decide
  · exact fun i s f hcmp hE => exec_setFlags f s i hcmp fun _ => hE

end Sys2Proof.Proofs
end

