-- ==== Sys2Proof/Proofs/Decoding.lean ====
section
/-! SUPPORT. Decoding and encoding as inverses (R70 to R77): what `decode` answers for each form of a table row, and from it the
two directions. -/

namespace Sys2Proof

theorem decode_nullary {op : Byte} {i : Instr} (h : lookup op = some (.nullary i)) (rest : List Byte) :
    decode (op :: rest) = .ok (i, rest) := by
  simp only [decode, h]

theorem decode_unary {op : Byte} {mk : Byte → Instr} (h : lookup op = some (.unary mk)) (a : Byte) (rest : List Byte) :
    decode (op :: a :: rest) = .ok (mk a, rest) := by
  simp only [decode, h]

theorem decode_binary {op : Byte} {mk : Byte → Byte → Instr} (h : lookup op = some (.binary mk)) (a b : Byte)
    (rest : List Byte) : decode (op :: a :: b :: rest) = .ok (mk a b, rest) := by
  simp only [decode, h]

theorem encode_of_opcode_operands {i : Instr} {op : Byte} {bs : List Byte} (h : i.opcode = op ∧ i.operands = bs) :
    encode i = op :: bs := by
  rw [encode, h.1, h.2]

/-- Decoding an encoding gives the instruction back and leaves what follows. -/
theorem decode_encode (i : Instr) (rest : List Byte) : decode (encode i ++ rest) = .ok (i, rest) := by
  rcases lookup_opcode i with ⟨j, hl, hops, rfl⟩ | ⟨mk, a, hl, hops, rfl⟩ | ⟨mk, a, b, hl, hops, rfl⟩
  · rw [encode, hops]; exact decode_nullary hl rest
  · rw [encode, hops]; exact decode_unary hl a rest
  · rw [encode, hops]; exact decode_binary hl a b rest

/-- Bytes that decode to an instruction begin with its encoding. -/
theorem eq_encode_of_decode {bs : List Byte} {i : Instr} {rest : List Byte} (h : decode bs = .ok (i, rest)) :
    bs = encode i ++ rest := by
  match bs with
  | [] => simp [decode] at h
  | op :: bs =>
    cases hl : lookup op with
    | none => simp [decode, hl] at h
    | some f =>
      cases f with
      | nullary j =>
        rw [decode_nullary hl] at h
        obtain ⟨rfl, rfl⟩ : j = i ∧ bs = rest := by simpa using h
        rw [encode_of_opcode_operands (lookup_nullary hl), List.cons_append, List.nil_append]
      | unary mk =>
        match bs with
        | [] => simp [decode, hl] at h
        | a :: bs =>
          rw [decode_unary hl] at h
          obtain ⟨rfl, rfl⟩ : mk a = i ∧ bs = rest := by simpa using h
          rw [encode_of_opcode_operands (lookup_unary hl a), List.cons_append, List.cons_append, List.nil_append]
      | binary mk =>
        match bs with
        | [] | [_] => simp [decode, hl] at h
        | a :: b :: bs =>
          rw [decode_binary hl] at h
          obtain ⟨rfl, rfl⟩ : mk a b = i ∧ bs = rest := by simpa using h
          rw [encode_of_opcode_operands (lookup_binary hl a b)]
          rfl

/-- Bits 7:6 of an opcode byte in the table are the operand count of its row, which is never 3 (R78, R81). -/
theorem lookup_operandCountField {op : Byte} {f : Form} (h : lookup op = some f) :
    operandCountField op = f.operandCount ∧ operandCountField op ≠ 3 :=
  lookup_forall (P := fun op f => operandCountField op = f.operandCount ∧ operandCountField op ≠ 3)
    (by simp [opcodeTable, operandCountField, Form.operandCount]) h

end Sys2Proof

namespace Sys2Proof.Proofs

open Sys2Proof Sys2Proof.Machine

/-- Settles O2: the two directions are `eq_encode_of_decode` and `decode_encode`. -/
theorem decodeExactlyInvertsEncode : Obligations.DecodeExactlyInvertsEncode := by
  unfold Obligations.DecodeExactlyInvertsEncode
  intro bs i rest
  refine ⟨eq_encode_of_decode, ?_⟩
  rintro rfl
  exact decode_encode i rest

/-- Settles O1: the eight words are encodings (`decode_encode`); the lookup of the two undefined bytes fails. -/
theorem spelledOutWordsDecode : Obligations.SpelledOutWordsDecode := by
  unfold Obligations.SpelledOutWordsDecode
  exact ⟨decode_encode .hlt [], decode_encode .ret [], decode_encode (.push 1#8) [], decode_encode (.call 1#8) [],
    decode_encode (.jeq 4#8) [], decode_encode (.prn 0#8) [], decode_encode (.ldi 0#8 8#8) [],
    decode_encode (.shr 2#8 7#8) [], rfl, rfl⟩

/-- Settles O3: the fields of every row by `lookup_operandCountField`, bit 4 by the opcode byte of each instruction. -/
theorem opcodeFieldsAgreeWithTable : Obligations.OpcodeFieldsAgreeWithTable := by
  unfold Obligations.OpcodeFieldsAgreeWithTable
  refine ⟨fun op f => lookup_operandCountField, fun i => ?_⟩
  cases i <;> simp [setsPcField, Instr.opcode]

end Sys2Proof.Proofs
end

