-- ==== Sys2Proof/Proofs/Cycle.lean ====
section
/-! SUPPORT. What a step of any state can do, said once for faults of the fetch and of exec alike (`step_next_cases`), and what
holds of every step by that: it completes, its faults are precise, and pc stays in range (R90 to R98, R169, R202). -/

namespace Sys2Proof.Machine

/-! ## Every step completes -/

theorem finish_next (s : State) (x : Except Trap State) : ∃ t, finish s x = .next t := by
  cases x with
  | ok t => exact ⟨t, rfl⟩
  | error tr => exact ⟨s.takeFault tr, rfl⟩

/-- Every instruction but HLT ends in `finish`, and HLT ends at once. -/
theorem exec_next (i : Instr) (s : State) : ∃ t, exec i s = .next t := by
  cases i with
  | hlt => exact ⟨_, rfl⟩
  | _ => exact finish_next s _

theorem step_next (s : State) : ∃ t, step s = .next t := by
  rcases step_cases s with ⟨-, h⟩ | ⟨-, tr, -, h⟩ | ⟨-, i, -, h⟩
  · exact ⟨_, h⟩
  · exact ⟨_, h⟩
  · rw [h]; exact exec_next i s

/-! ## A core that is not enabled -/

theorem enabled_eq_false_of_halted_or_faulted {s : State} (h : s.running = false ∨ s.fault ≠ none) :
    s.enabled = false := by
  rw [← Bool.not_eq_true, State.enabled_iff]
  rintro ⟨hrun, hfault⟩
  rcases h with h | h
  · rw [h] at hrun; cases hrun
  · exact h hfault

theorem takeFault_not_enabled (s : State) (tr : Trap) : (s.takeFault tr).enabled = false :=
  enabled_eq_false_of_halted_or_faulted (.inr (by simp))

theorem run_succ_of_step {M : Host.Core} {s t : M.State} (h : M.step s = .next t) (n : Nat) :
    M.run (n + 1) s = M.run n t := by
  rw [Host.Core.run, h]

theorem run_not_enabled {s : State} (h : s.enabled = false) (n : Nat) : Host.Core.run core n s = .next s := by
  induction n with
  | zero => rfl
  | succ n ih =>
    have hstep : core.step s = .next s := step_not_enabled h
    exact (run_succ_of_step hstep n).trans ih

/-! ## The outcomes of a step -/

/-- What a fault entered by a step from `s` can report: as `EntersFault` and `fetch_cases` have it, the kinds of R161 but the
ALU's own, each with the information its rule gives. Information above 256 needs a pc above 256. -/
def StepTrap (s : State) (tr : Trap) : Prop :=
  (tr.kind = .unknownOpcode ∧ ∃ op : Byte, lookup op = none ∧ tr.info = op.toNat) ∨
  (tr.kind = .registerIndex ∧ 8 ≤ tr.info ∧ tr.info ≤ 255) ∨
  (tr.kind = .arithmetic ∧ tr.info = s.pc.toNat) ∨
  (tr.kind = .address ∧ (tr.info = -1 ∨ tr.info = 256 ∨ (255 < s.pc.toNat ∧ tr.info = s.pc.toNat)))

theorem fetch_error_stepTrap {s : State} {tr : Trap} (h : fetch s = .error tr) : StepTrap s tr := by
  rcases fetch_cases s with ⟨hpc, hf⟩ | ⟨-, hl, hf⟩ | ⟨-, hf, -⟩ | ⟨i, hf, -⟩ <;> rw [h] at hf <;> cases hf
  · exact .inr (.inr (.inr ⟨rfl, .inr (.inr ⟨hpc, rfl⟩)⟩))
  · exact .inl ⟨rfl, _, hl, rfl⟩
  · exact .inr (.inr (.inr ⟨rfl, .inr (.inl rfl)⟩))

/-- A fetched instruction lies below 256 with all its bytes. -/
theorem fetch_ok_fits {s : State} {i : Instr} (h : fetch s = .ok i) : s.pc.toNat + (encode i).length ≤ 256 := by
  rcases fetch_cases s with ⟨-, hf⟩ | ⟨-, -, hf⟩ | ⟨-, hf, -⟩ | ⟨j, hf, hfit, -⟩ <;> rw [h] at hf <;> cases hf
  rw [encode, List.length_cons]
  omega

/-- CALL's fault on its return address is an AddressError(256) when CALL was fetched, since its operand byte was below 256. -/
theorem entersFault_stepTrap {s t : State} {i : Instr} (hi : fetch s = .ok i) (h : EntersFault i s t) :
    ∃ tr, StepTrap s tr ∧ t = s.takeFault tr := by
  obtain ⟨tr, ht, hreg | harith | ⟨hkind, hinfo⟩⟩ := h.entry
  · exact ⟨tr, .inr (.inl hreg), ht⟩
  · exact ⟨tr, .inr (.inr (.inl harith)), ht⟩
  · refine ⟨tr, .inr (.inr (.inr ⟨hkind, ?_⟩)), ht⟩
    rcases hinfo with hneg | h256 | ⟨⟨a, rfl⟩, hpc, hret⟩
    · exact .inl hneg
    · exact .inr (.inl h256)
    · have hfit : s.pc.toNat + 2 ≤ 256 := fetch_ok_fits hi
      exact .inr (.inl (by omega))

/-- The three outcomes of a step: no step, a fault entered, an instruction committed. -/
theorem step_next_cases {s t : State} (h : step s = .next t) :
    (s.enabled = false ∧ t = s) ∨
    (s.enabled = true ∧ ∃ tr, StepTrap s tr ∧ t = s.takeFault tr) ∨
    (s.enabled = true ∧ ∃ i, fetch s = .ok i ∧ Commits i s t) := by
  rcases step_cases s with ⟨hen, hs⟩ | ⟨hen, tr, hf, hs⟩ | ⟨hen, i, hi, hs⟩ <;> rw [hs] at h
  · cases h; exact .inl ⟨hen, rfl⟩
  · cases h; exact .inr (.inl ⟨hen, tr, fetch_error_stepTrap hf, rfl⟩)
  · rcases exec_cases i s t h with hf | hc
    · exact .inr (.inl ⟨hen, entersFault_stepTrap hi hf⟩)
    · exact .inr (.inr ⟨hen, i, hi, hc⟩)

/-! ## The program counter -/

/-- Past a fetched instruction pc does not wrap. -/
theorem fetched_advance_toNat {s : State} {i : Instr} (h : fetch s = .ok i) :
    (s.pc + BitVec.ofNat 9 (encode i).length).toNat = s.pc.toNat + i.length := by
  have hfit := fetch_ok_fits h
  rw [Instr.length_eq, BitVec.toNat_add, BitVec.toNat_ofNat]
  omega

theorem commits_pc_le {s t : State} {i : Instr} (h : fetch s = .ok i) (hc : Commits i s t) : t.pc.toNat ≤ 256 := by
  have hfit := fetch_ok_fits h
  rcases hc.pc with hpc | ⟨-, hpc⟩
  · rw [hpc, fetched_advance_toNat h, Instr.length_eq]; exact hfit
  · omega

theorem step_pc_le {s t : State} (hs : s.pc.toNat ≤ 256) (h : step s = .next t) : t.pc.toNat ≤ 256 := by
  rcases step_next_cases h with ⟨-, rfl⟩ | ⟨-, tr, -, rfl⟩ | ⟨-, i, hi, hc⟩
  · exact hs
  · exact hs
  · exact commits_pc_le hi hc

end Sys2Proof.Machine

namespace Sys2Proof.Proofs

open Sys2Proof Sys2Proof.Machine

/-- Settles O6, by `run_not_enabled` (induction on the number of steps). -/
theorem disabledCoreNeverChanges : Obligations.DisabledCoreNeverChanges := by
  unfold Obligations.DisabledCoreNeverChanges
  exact fun s n h => run_not_enabled (enabled_eq_false_of_halted_or_faulted h) n

/-- Settles O7. -/
theorem everyStepCompletes : Obligations.EveryStepCompletes := by
  unfold Obligations.EveryStepCompletes
  exact step_next

/-- Settles O8: the opcode's address is the first thing checked (`fetch_past_the_end`). -/
theorem fetchPastLastCellFaults : Obligations.FetchPastLastCellFaults := by
  unfold Obligations.FetchPastLastCellFaults
  exact fun s hen hpc => step_fetch_fault hen (fetch_past_the_end hpc)

/-- Settles O11: of the three outcomes of a step only the entry of a fault changes the latch. -/
theorem faultsArePrecise : Obligations.FaultsArePrecise := by
  unfold Obligations.FaultsArePrecise
  intro s t h hfault
  rcases step_next_cases h with ⟨-, rfl⟩ | ⟨hen, tr, -, rfl⟩ | ⟨-, i, -, hc⟩
  · exact absurd rfl hfault
  · exact ⟨hen, ⟨tr.kind, s.pc, tr.info⟩, rfl, rfl⟩
  · exact absurd hc.fault hfault

/-- Settles O12: no trap of a step is of that kind (`StepTrap`), and the other outcomes keep the latch. -/
theorem unsupportedAluOperationIsUnreachable : Obligations.UnsupportedAluOperationIsUnreachable := by
  unfold Obligations.UnsupportedAluOperationIsUnreachable
  intro s t r h hr hkind
  rcases step_next_cases h with ⟨-, rfl⟩ | ⟨-, tr, htr, rfl⟩ | ⟨-, i, -, hc⟩
  · exact hr
  · obtain rfl : ⟨tr.kind, s.pc, tr.info⟩ = r := by simpa using hr
    simp only at hkind
    simp [StepTrap, hkind] at htr
  · rw [← hc.fault]; exact hr

/-- Settles O13: an instruction that did not fault committed, and its bytes lie below 256, so the nine-bit sum does not wrap. -/
theorem pcAdvancesByLength : Obligations.PcAdvancesByLength := by
  unfold Obligations.PcAdvancesByLength
  refine ⟨fun s t i _ hi hbit hexec hfault => ?_, fun s t => step_pc_le⟩
  rcases exec_cases i s t hexec with hf | hc
  · obtain ⟨tr, rfl, -⟩ := hf.entry
    simp at hfault
  · rcases hc.pc with hpc | ⟨hsets, -⟩
    · rw [hpc, fetched_advance_toNat hi]
    · simp [hbit] at hsets

end Sys2Proof.Proofs
end

