-- ==== Sys2Proof/Proofs/Invariant.lean ====
section
/-! SUPPORT. The invariant of R37: it holds at reset with any image that fits (R36, R191), and each outcome of a step keeps it. -/

namespace Sys2Proof.Machine

/-! ## Reset -/

theorem reset_inv : State.reset.Inv where
  pc_in_range := by decide
  flags_legal := rfl
  mem_wf := rfl
  halted_has_no_fault := fun _ => rfl
  fault_legal := fun _ h => by cases h

/-- Booting succeeds exactly with an image that fits, and then differs from reset in memory only. -/
theorem boot_eq_some {image : List Byte} {s : State} :
    State.boot image = some s ↔ image.length ≤ 256 ∧ { State.reset with mem := Memory.load 0 image [] } = s := by
  simp [State.boot, State.loadImage, Config.loadBase, State.reset]

theorem boot_inv {image : List Byte} {s : State} (h : State.boot image = some s) : s.Inv := by
  obtain ⟨-, rfl⟩ := boot_eq_some.1 h
  exact { reset_inv with mem_wf := Memory.wf_load image 0 rfl }

/-- The image's bytes stand from address 0, and every other cell reads as blank. -/
theorem read_load_image {image : List Byte} (hlen : image.length ≤ 256) (a : Nat) :
    Memory.read (Memory.load 0 image []) a = if h : a < image.length then image[a] else 0#8 := by
  rw [Memory.read_load image 0 rfl a]
  by_cases h : a < image.length
  · rw [dif_pos (by omega), dif_pos h]
    rfl
  · rw [dif_neg (by omega), dif_neg h]
    rfl

/-! ## The outcomes of a step -/

theorem legalFlags_of_oneHot {f : FlagWord} (h : f = 0b001#3 ∨ f = 0b010#3 ∨ f = 0b100#3) : legalFlags f = true := by
  rcases h with rfl | rfl | rfl <;> rfl

/-- With pc in range, what a step latches is a legal record: an address in the information is -1 or 256. -/
theorem stepTrap_legal {s : State} {tr : Trap} (hpc : s.pc.toNat ≤ 256) (h : StepTrap s tr) :
    FaultRecord.Legal ⟨tr.kind, s.pc, tr.info⟩ (s.takeFault tr) := by
  obtain ⟨kind, info⟩ := tr
  rcases h with ⟨rfl, hop⟩ | ⟨rfl, hinfo⟩ | ⟨rfl, hinfo⟩ | ⟨rfl, hinfo⟩
  · exact ⟨rfl, hop⟩
  · exact ⟨rfl, hinfo⟩
  · exact ⟨rfl, hinfo⟩
  · refine ⟨rfl, ?_⟩
    simp only at hinfo ⊢
    omega

theorem takeFault_inv {s : State} {tr : Trap} (hs : s.Inv) (hen : s.enabled = true) (h : StepTrap s tr) :
    (s.takeFault tr).Inv where
  pc_in_range := hs.pc_in_range
  flags_legal := hs.flags_legal
  mem_wf := hs.mem_wf
  halted_has_no_fault := fun hrun => by
    obtain ⟨hrunning, -⟩ := s.enabled_iff.1 hen
    simp [hrunning] at hrun
  fault_legal := fun r hr => by
    obtain rfl : ⟨tr.kind, s.pc, tr.info⟩ = r := by simpa using hr
    exact stepTrap_legal hs.pc_in_range h

theorem commits_mem_wf {i : Instr} {s t : State} (hs : s.mem.wf = true) (hc : Commits i s t) : t.mem.wf = true := by
  rcases hc.mem with hmem | ⟨-, v, c, -, hmem⟩
  · rw [hmem]; exact hs
  · rw [hmem]; exact Memory.wf_write v c.isLt hs

theorem commits_inv {i : Instr} {s t : State} (hs : s.Inv) (hen : s.enabled = true) (hi : fetch s = .ok i)
    (hc : Commits i s t) : t.Inv := by
  obtain ⟨-, hnone⟩ := s.enabled_iff.1 hen
  have hfault : t.fault = none := hc.fault.trans hnone
  refine ⟨commits_pc_le hi hc, ?_, commits_mem_wf hs.mem_wf hc, fun _ => hfault, fun r hr => ?_⟩
  · rcases hc.fl with hfl | ⟨-, hfl⟩
    · rw [hfl]; exact hs.flags_legal
    · exact legalFlags_of_oneHot hfl
  · rw [hfault] at hr; cases hr

theorem step_inv {s t : State} (hs : s.Inv) (h : step s = .next t) : t.Inv := by
  rcases step_next_cases h with ⟨-, rfl⟩ | ⟨hen, tr, htr, rfl⟩ | ⟨hen, i, hi, hc⟩
  · exact hs
  · exact takeFault_inv hs hen htr
  · exact commits_inv hs hen hi hc

end Sys2Proof.Machine

namespace Sys2Proof.Proofs

open Sys2Proof Sys2Proof.Machine

/-- Settles O16: no step keeps it trivially, a fault entered by `takeFault_inv`, an instruction committed by `commits_inv`. -/
theorem stepKeepsInvariant : Obligations.StepKeepsInvariant := by
  unfold Obligations.StepKeepsInvariant
  exact fun s t => step_inv

/-- Settles O15. -/
theorem resetMeetsInvariant : Obligations.ResetMeetsInvariant := by
  unfold Obligations.ResetMeetsInvariant
  exact ⟨reset_inv, fun image s => boot_inv⟩

/-- Settles O14: the booted state is reset with the image in memory, whose cells `read_load_image` reads. -/
theorem resetValues : Obligations.ResetValues := by
  unfold Obligations.ResetValues
  intro image hlen
  refine ⟨_, boot_eq_some.2 ⟨hlen, rfl⟩, rfl, rfl, rfl, rfl, rfl, rfl, rfl, rfl, rfl, rfl, rfl, rfl, rfl, ?_, ?_⟩
  · intro a ha
    exact (read_load_image hlen a).trans (dif_pos ha)
  · intro a ha _
    exact (read_load_image hlen a).trans (dif_neg (by omega))

end Sys2Proof.Proofs
end

