-- ==== Sys2Proof/Proofs/Fetching.lean ====
section
/-! SUPPORT. What the fetch does with the bytes at pc (R91 to R94, R162): it answers the instruction whose encoding they are, and
refuses every byte outside the table; and the register-operand check that every handler begins with (R95). From these, the
faults common to all rows of a format. -/

namespace Sys2Proof.Machine

/-! ## The instruction at pc -/

theorem fetch_nullary {s : State} {i : Instr} (h : s.pc.toNat ≤ 255) (hl : lookup (s.byteAt s.pc.toNat) = some (.nullary i)) :
    fetch s = .ok i := by
  simp only [fetch, memRead_nat h, hl]

/-- The bytes of an encoding at pc are fetched as the instruction. -/
theorem fetch_of_encode {s : State} {i : Instr} (hfit : s.pc.toNat + (encode i).length ≤ 256)
    (hbytes : ∀ (k : Nat) (hk : k < (encode i).length), s.byteAt (s.pc.toNat + k) = (encode i)[k]) : fetch s = .ok i := by
  have hop : s.byteAt s.pc.toNat = i.opcode := hbytes 0 (Nat.succ_pos _)
  rcases lookup_opcode i with ⟨j, hl, hops, rfl⟩ | ⟨mk, a, hl, hops, rfl⟩ | ⟨mk, a, b, hl, hops, rfl⟩ <;>
    simp only [encode, hops, List.length_cons, List.length_nil] at hfit hbytes <;> rw [← hop] at hl
  · exact fetch_nullary (by omega) hl
  · have ha : memRead ((s.pc.toNat : Int) + 1) s = .ok a :=
      (memRead_offset (k := 1) (by omega)).trans (congrArg _ (hbytes 1 (by omega)))
    rw [fetch_unary (by omega) hl, ha]
    rfl
  · have ha : memRead ((s.pc.toNat : Int) + 1) s = .ok a :=
      (memRead_offset (k := 1) (by omega)).trans (congrArg _ (hbytes 1 (by omega)))
    have hb : memRead ((s.pc.toNat : Int) + 2) s = .ok b :=
      (memRead_offset (k := 2) (by omega)).trans (congrArg _ (hbytes 2 (by omega)))
    rw [fetch_binary (by omega) hl, ha, hb]
    rfl

theorem bytesFromPc_length (s : State) : s.bytesFromPc.length = 256 - s.pc.toNat := by
  simp [State.bytesFromPc]

theorem bytesFromPc_getElem (s : State) (k : Nat) (hk : k < s.bytesFromPc.length) :
    s.bytesFromPc[k] = s.byteAt (s.pc.toNat + k) := by
  simp [State.bytesFromPc]

/-- The fetch agrees with the decoder on the bytes from pc on. -/
theorem fetch_of_decode {s : State} {i : Instr} {rest : List Byte} (h : decode s.bytesFromPc = .ok (i, rest)) :
    fetch s = .ok i := by
  have heq := eq_encode_of_decode h
  have hlen : 256 - s.pc.toNat = (encode i).length + rest.length := by
    rw [← bytesFromPc_length, heq, List.length_append]
  have hpos : 0 < (encode i).length := Nat.succ_pos _
  refine fetch_of_encode (by omega) fun k hk => ?_
  have hk' : k < s.bytesFromPc.length := by rw [bytesFromPc_length]; omega
  rw [← bytesFromPc_getElem s k hk', List.getElem_of_eq heq, List.getElem_append_left hk]

theorem fetch_placeAtPc {s : State} {i : Instr} (hwf : s.mem.wf = true) (hfit : s.pc.toNat + (encode i).length ≤ 256) :
    fetch (s.placeAtPc (encode i)) = .ok i := by
  refine fetch_of_encode hfit fun k hk => ?_
  rw [State.byteAt, State.placeAtPc_mem, State.placeAtPc_pc, Memory.read_load _ _ hwf, dif_pos (by omega)]
  simp only [Nat.add_sub_cancel_left]

/-! ## Bytes outside the table -/

theorem opcodeTable_bytes : (opcodeTable.map fun row => row.1) = definedOpcodes := rfl

theorem lookup_eq_none_of_not_mem {op : Byte} (h : op ∉ definedOpcodes) : lookup op = none := by
  rw [lookup, Option.map_eq_none_iff, List.find?_eq_none]
  intro row hrow heq
  rw [beq_iff_eq] at heq
  exact h (opcodeTable_bytes ▸ List.mem_map.2 ⟨row, hrow, heq⟩)

theorem step_undefined {s : State} (hen : s.enabled = true) (hpc : s.pc.toNat ≤ 255)
    (h : s.byteAt s.pc.toNat ∉ definedOpcodes) :
    step s = FaultNext s .unknownOpcode (s.byteAt s.pc.toNat).toNat :=
  step_fetch_fault hen (fetch_undefined hpc (lookup_eq_none_of_not_mem h))

/-! ## Missing operand bytes -/

/-- A row with operands that starts above `256 - length` lacks one. -/
theorem truncatedFaults_of_lookup {op : Byte} {f : Form} (hl : lookup op = some f) {last : Nat}
    (hlast : 255 ≤ last + f.operandCount) : TruncatedFaults op last := by
  intro s hen hgt hle hop
  rcases fetch_cases s with ⟨hpc, -⟩ | ⟨-, hnone, -⟩ | ⟨-, hf, -⟩ | ⟨i, -, hfit, hi, -⟩
  · omega
  · rw [hop, hl] at hnone; cases hnone
  · exact step_fetch_fault hen hf
  · have hcount : i.operands.length = f.operandCount := by
      have hlen := i.length_eq
      rw [encode, List.length_cons, Instr.length, hi, hop, (lookup_operandCountField hl).1] at hlen
      omega
    omega

/-! ## The register-operand check -/

/-- Every handler checks its register operands in order before it does anything else (R95). -/
theorem exec_checks_operands (i : Instr) (s : State) :
    i.regOperands = [] ∨
    (∃ (a : Byte) (k : RegIdx → Except Trap State), i.regOperands = [a] ∧ exec i s = finish s (regIndex a >>= k)) ∨
    ∃ (a b : Byte) (k : RegIdx → RegIdx → Except Trap State), i.regOperands = [a, b] ∧
      exec i s = finish s (regIndex a >>= fun ra => regIndex b >>= k ra) := by
  cases i with
  | hlt | ret => exact .inl rfl
  | push a | pop a | call a | jmp a | jeq a | jne a | prn a | pra a | ldi a v => exact .inr (.inl ⟨_, _, rfl, rfl⟩)
  | cmp a b | add a b | sub a b | mul a b | div a b | mod a b | or a b | xor a b | shl a b | shr a b =>
    exact .inr (.inr ⟨_, _, _, rfl, rfl⟩)

theorem legalRegByte_eq_false {b : Byte} : legalRegByte b = false ↔ 7 < b.toNat := by
  simp [legalRegByte]
  omega

theorem regIndex_of_legal {b : Byte} (h : legalRegByte b = true) : ∃ r, regIndex b = .ok r := by
  rcases regIndex_cases b with ⟨r, -, hr⟩ | ⟨hb, -⟩
  · exact ⟨r, hr⟩
  · rw [← legalRegByte_eq_false, h] at hb; cases hb

theorem finish_regIndex_illegal {b : Byte} (h : legalRegByte b = false) (s : State)
    (k : RegIdx → Except Trap State) : finish s (regIndex b >>= k) = FaultNext s .registerIndex b.toNat := by
  rw [regIndex_illegal (legalRegByte_eq_false.1 h)]
  rfl

theorem exec_illegal_register {i : Instr} {b : Byte} (s : State)
    (h : i.regOperands.find? (fun c => !legalRegByte c) = some b) : exec i s = FaultNext s .registerIndex b.toNat := by
  rcases exec_checks_operands i s with hops | ⟨a, k, hops, hex⟩ | ⟨a, c, k, hops, hex⟩ <;> rw [hops] at h
  · cases h
  · cases ha : legalRegByte a with
    | true => simp [ha] at h
    | false =>
      obtain rfl : a = b := by simpa [ha] using h
      rw [hex, finish_regIndex_illegal ha]
  · cases ha : legalRegByte a with
    | true =>
      obtain ⟨ra, hra⟩ := regIndex_of_legal ha
      cases hc : legalRegByte c with
      | true => simp [ha, hc] at h
      | false =>
        obtain rfl : c = b := by simpa [ha, hc] using h
        rw [hex, hra, except_bind_ok, finish_regIndex_illegal hc]
    | false =>
      obtain rfl : a = b := by simpa [ha] using h
      rw [hex, finish_regIndex_illegal ha]

/-! ## The formats of the opcode table -/

theorem regFormat_of_lookup {op : Byte} {mk : Byte → Instr} (hl : lookup op = some (.unary mk))
    (hops : ∀ a, (mk a).regOperands = [a]) : RegFormat op mk where
  decodes := decode_unary hl
  truncated := truncatedFaults_of_lookup hl le_rfl
  index := fun a s ha => exec_illegal_register s (by simp [hops, legalRegByte_eq_false.2 ha])

theorem regRegFormat_of_lookup {op : Byte} {mk : Byte → Byte → Instr} (hl : lookup op = some (.binary mk))
    (hops : ∀ a b, (mk a b).regOperands = [a, b]) : RegRegFormat op mk where
  decodes := decode_binary hl
  truncated := truncatedFaults_of_lookup hl le_rfl
  indexA := fun a b s ha => exec_illegal_register s (by simp [hops, legalRegByte_eq_false.2 ha])
  indexB := fun a b s ha hb => by
    have hlegal : legalRegByte a = true := by
      rw [← Bool.not_eq_false, legalRegByte_eq_false]
      omega
    exact exec_illegal_register s (by simp [hops, hlegal, legalRegByte_eq_false.2 hb])

end Sys2Proof.Machine

namespace Sys2Proof.Proofs

open Sys2Proof Sys2Proof.Machine

/-- Settles O4. -/
theorem stepRunsTheDecodedInstruction : Obligations.StepRunsTheDecodedInstruction := by
  unfold Obligations.StepRunsTheDecodedInstruction
  exact fun s i rest hen h => step_fetched hen (fetch_of_decode h)

/-- Settles O5. -/
theorem placedInstructionIsExecuted : Obligations.PlacedInstructionIsExecuted := by
  unfold Obligations.PlacedInstructionIsExecuted
  exact fun s i hen hwf hfit => step_fetched hen (fetch_placeAtPc hwf hfit)

/-- Settles O9: the lookup fails outside the table (`step_undefined`), and the faulted core takes no further step. -/
theorem undefinedOpcodeIsFatal : Obligations.UndefinedOpcodeIsFatal := by
  unfold Obligations.UndefinedOpcodeIsFatal
  refine ⟨fun s hen hpc hop => ⟨step_undefined hen hpc hop, fun n t h => ?_⟩, by decide, rfl⟩
  rw [step_undefined hen hpc hop] at h
  cases h
  exact run_not_enabled (takeFault_not_enabled s ⟨.unknownOpcode, _⟩) n

/-- Settles O10: the checks come first in every handler (`exec_checks_operands`). -/
theorem illegalRegisterFaultsFirst : Obligations.IllegalRegisterFaultsFirst := by
  unfold Obligations.IllegalRegisterFaultsFirst
  exact fun i b s => exec_illegal_register s

end Sys2Proof.Proofs
end

