-- ==== Sys2Proof/Proofs/RegisterIo.lean ====
section
/-! SUPPORT. LDI, PRN, PRA and HLT at a legal register (R110 to R113), and the frame of the two shapes of next state that only
write a register, or nothing, and advance pc. -/

namespace Sys2Proof.Machine

variable (s : State) (r : RegIdx)

/-! ## Frames -/

theorem keeps_setReg_advance (v : Byte) (n : Nat) : Keeps s ((s.setReg r v).advance n) [r] [] where
  regs := fun q hq => by
    rw [List.mem_singleton] at hq
    rw [State.advance_reg, State.setReg_reg_other s v hq]
  bytes := fun _ _ => rfl

theorem sameControl_setReg_advance (v : Byte) (n : Nat) : SameControl s ((s.setReg r v).advance n) := ⟨rfl, rfl, rfl, rfl⟩

/-! ## The next state of each instruction -/

theorem exec_ldi (v : Byte) : exec (.ldi (regByte r) v) s = .next ((s.setReg r v).advance 3) := by
  simp only [exec, execLdi, regIndex_regByte, except_bind_ok, except_pure, finish_ok]

theorem emitRegister_regByte (k : OutKind) :
    emitRegister k (regByte r) s = .next ((s.emit k (s.reg r)).advance 2) := by
  simp only [emitRegister, regIndex_regByte, except_bind_ok, except_pure, finish_ok]

theorem exec_prn : exec (.prn (regByte r)) s = .next ((s.emit .prn (s.reg r)).advance 2) := emitRegister_regByte s r .prn

theorem exec_pra : exec (.pra (regByte r)) s = .next ((s.emit .pra (s.reg r)).advance 2) := emitRegister_regByte s r .pra

theorem exec_hlt : exec .hlt s = .next (s.halt.advance 1) := rfl

theorem halt_advance_not_enabled (n : Nat) : (s.halt.advance n).enabled = false :=
  enabled_eq_false_of_halted_or_faulted (.inl rfl)

/-- A byte is a valid code point, so PRA's character has it as its number. -/
theorem char_ofNat_byte_toNat (v : Byte) : (Char.ofNat v.toNat).toNat = v.toNat := by
  have hvalid : v.toNat.isValidChar := .inl (by have := v.isLt; omega)
  rw [Char.toNat_ofNat, if_pos hvalid]

variable {s}

/-- HLT needs the byte at pc only, so it is fetched at 255 too (R94). -/
theorem step_hlt (hen : s.enabled = true) (hpc : s.pc.toNat ≤ 255) (hop : s.byteAt s.pc.toNat = 0x01#8) :
    step s = .next (s.halt.advance 1) :=
  step_fetched (i := .hlt) hen (fetch_nullary hpc (by rw [hop]; rfl))

end Sys2Proof.Machine

namespace Sys2Proof.Proofs

open Sys2Proof Sys2Proof.Machine

/-- Settles O25: the row's faults by its table entry, its effect by `exec_ldi`. -/
theorem ldiLoadsTheLiteral : Obligations.LdiLoadsTheLiteral := by
  unfold Obligations.LdiLoadsTheLiteral
  have hl : lookup 0x82#8 = some (.binary .ldi) := rfl
  refine ⟨decode_binary hl, truncatedFaults_of_lookup hl le_rfl, fun a v s ha => ?_, fun r v s => ?_⟩
  · exact exec_illegal_register s (by simp [Instr.regOperands, legalRegByte_eq_false.2 ha])
  · exact ⟨_, exec_ldi s r v, State.setReg_reg_same s r v, keeps_setReg_advance s r v 3,
      sameControl_setReg_advance s r v 3, rfl⟩

/-- Settles O26. -/
theorem prnEmitsTheNumber : Obligations.PrnEmitsTheNumber := by
  unfold Obligations.PrnEmitsTheNumber
  exact ⟨regFormat_of_lookup rfl fun _ => rfl, fun r s => exec_prn s r, fun _ => rfl⟩

/-- Settles O27. -/
theorem praEmitsTheCharacter : Obligations.PraEmitsTheCharacter := by
  unfold Obligations.PraEmitsTheCharacter
  refine ⟨regFormat_of_lookup rfl fun _ => rfl, fun r s => exec_pra s r, fun v => ?_⟩
  simp [OutEvent.render, char_ofNat_byte_toNat]

/-- Settles O28: HLT's next state is not enabled, so it is the last one. -/
theorem hltClearsTheRunningFlag : Obligations.HltClearsTheRunningFlag := by
  unfold Obligations.HltClearsTheRunningFlag
  refine ⟨decode_nullary rfl, exec_hlt, fun s t n h => ?_, fun s hen hpc hop => ?_⟩
  · cases h
    exact run_not_enabled (halt_advance_not_enabled s 1) n
  · refine ⟨_, step_hlt hen hpc hop, rfl, (s.enabled_iff.1 hen).2, ?_⟩
    simp only [State.advance_pc, State.halt_pc, BitVec.toNat_add, BitVec.toNat_ofNat]
    omega

end Sys2Proof.Proofs
end

