-- ==== Sys2Proof/Proofs/Jumps.lean ====
section
/-! SUPPORT. The next state of the three jumps at a legal register, written out (R151 to R153). -/

namespace Sys2Proof.Machine

variable (r : RegIdx) (s : State)

theorem exec_jmp : exec (.jmp (regByte r)) s = .next (s.jumpTo (s.reg r)) := by
  rw [exec_jmp_eq_jumpIf, jumpIf, regIndex_regByte]
  rfl

theorem exec_jeq : exec (.jeq (regByte r)) s =
    .next { s with pc := if flagE s.fl = true then (s.reg r).setWidth 9 else s.pc + 2#9 } := by
  cases hE : flagE s.fl with
  | true => rw [exec_jeq_of_flagE_set r hE, exec_jmp]; rfl
  | false => rw [exec_jeq_of_flagE_clear r hE]; rfl

theorem exec_jne : exec (.jne (regByte r)) s =
    .next { s with pc := if flagE s.fl = true then s.pc + 2#9 else (s.reg r).setWidth 9 } := by
  cases hE : flagE s.fl with
  | true => rw [exec_jne_of_flagE_set r hE]; rfl
  | false => rw [exec_jne_of_flagE_clear r hE, exec_jmp]; rfl

end Sys2Proof.Machine

namespace Sys2Proof.Proofs

open Sys2Proof Sys2Proof.Machine

/-- Settles O47. -/
theorem jmpLoadsThePc : Obligations.JmpLoadsThePc := by
  unfold Obligations.JmpLoadsThePc
  exact ⟨regFormat_of_lookup rfl fun _ => rfl, fun r s => ⟨_, exec_jmp r s, jumpTo_pc_toNat s _, rfl⟩⟩

/-- Settles O48. -/
theorem jeqJumpsWhenEqual : Obligations.JeqJumpsWhenEqual := by
  unfold Obligations.JeqJumpsWhenEqual
  exact ⟨regFormat_of_lookup rfl fun _ => rfl, exec_jeq⟩

/-- Settles O49. -/
theorem jneJumpsWhenNotEqual : Obligations.JneJumpsWhenNotEqual := by
  unfold Obligations.JneJumpsWhenNotEqual
  exact ⟨regFormat_of_lookup rfl fun _ => rfl, exec_jne⟩

end Sys2Proof.Proofs
end

