-- ==== Sys2Proof/Proofs/Alu.lean ====
section
/-! SUPPORT. The ten ALU instructions at legal registers (R120 to R132): the next state of each of the three shared forms, the
values of the operations at one operand twice, and the flags of a comparison. -/

namespace Sys2Proof.Machine

/-! ## The shared forms -/

section
variable (f : Byte → Byte → Byte) (a b : RegIdx) (s : State)

theorem aluStore_regByte :
    aluStore f (regByte a) (regByte b) s = .next ((s.setReg a (f (s.reg a) (s.reg b))).advance 3) := by
  simp only [aluStore, regIndex_regByte, except_bind_ok, except_pure, finish_ok]

variable {s b} in
theorem aluDivide_of_ne (h : s.reg b ≠ 0#8) :
    aluDivide f (regByte a) (regByte b) s = .next ((s.setReg a (f (s.reg a) (s.reg b))).advance 3) := by
  simp only [aluDivide, regIndex_regByte, except_bind_ok, if_neg h, except_pure, finish_ok]

variable {s b} in
theorem aluDivide_of_eq (h : s.reg b = 0#8) :
    aluDivide f (regByte a) (regByte b) s = FaultNext s .arithmetic s.pc.toNat := by
  simp only [aluDivide, regIndex_regByte, except_bind_ok, if_pos h]
  rfl

theorem exec_cmp_regByte : exec (.cmp (regByte a) (regByte b)) s =
    .next ((s.setFlags (compareFlags (s.reg a) (s.reg b))).advance 3) := by
  simp only [exec, execCmp, regIndex_regByte, except_bind_ok, except_pure, finish_ok]

end

/-- The register an ALU instruction wrote. -/
theorem reg_setReg_advance (s : State) (r : RegIdx) (v : Byte) (n : Nat) : ((s.setReg r v).advance n).reg r = v :=
  s.setReg_reg_same r v

section
variable {mk : Byte → Byte → Instr} {f : Byte → Byte → Byte} {Result : Byte → Byte → Byte → Prop}

/-- An instruction of the shared form `aluStore` stores what its operation computes. -/
theorem aluStores_of_exec (hexec : ∀ a b s, exec (mk a b) s = aluStore f a b s) (hf : ∀ A B, Result A B (f A B)) :
    AluStores mk Result := by
  intro a b s
  refine ⟨_, (hexec _ _ s).trans (aluStore_regByte f a b s), ?_, keeps_setReg_advance s a _ 3,
    sameControl_setReg_advance s a _ 3, rfl⟩
  rw [reg_setReg_advance]
  exact hf _ _

/-- An instruction of the shared form `aluDivide` stores what its operation computes, or faults on a zero divisor. -/
theorem aluDivides_of_exec (hexec : ∀ a b s, exec (mk a b) s = aluDivide f a b s) (hf : ∀ A B, Result A B (f A B)) :
    AluDivides mk Result := by
  refine ⟨fun a b s hb => ?_, fun a b s hb => (hexec _ _ s).trans (aluDivide_of_eq f a hb)⟩
  refine ⟨_, (hexec _ _ s).trans (aluDivide_of_ne f a hb), ?_, keeps_setReg_advance s a _ 3,
    sameControl_setReg_advance s a _ 3, rfl⟩
  rw [reg_setReg_advance]
  exact hf _ _

end

/-! ## Shifts by eight or more -/

theorem aluShl_of_eight_le (A : Byte) {B : Byte} (h : 8 ≤ B.toNat) : aluShl A B = 0#8 := by
  have hdvd : 256 ∣ 2 ^ B.toNat := Nat.pow_dvd_pow 2 h
  refine BitVec.eq_of_toNat_eq ?_
  rw [aluShl_toNat, Nat.mod_eq_zero_of_dvd (hdvd.mul_left _)]
  rfl

theorem aluShr_eq_zero {A B : Byte} (h : A.toNat < 2 ^ B.toNat) : aluShr A B = 0#8 := by
  refine BitVec.eq_of_toNat_eq ?_
  rw [aluShr_toNat, Nat.div_eq_of_lt h]
  rfl

theorem aluShr_of_eight_le (A : Byte) {B : Byte} (h : 8 ≤ B.toNat) : aluShr A B = 0#8 :=
  aluShr_eq_zero (A.isLt.trans_le (Nat.pow_le_pow_right two_pos h))

/-! ## One operand twice (R132) -/

theorem toNat_pos_of_ne {A : Byte} (h : A ≠ 0#8) : 0 < A.toNat :=
  Nat.pos_of_ne_zero fun h0 => h (BitVec.eq_of_toNat_eq h0)

theorem aluSub_self (A : Byte) : aluSub A A = 0#8 := by
  rw [aluSub, sub_self]
  rfl

theorem aluDiv_self {A : Byte} (h : A ≠ 0#8) : aluDiv A A = 1#8 := by
  refine BitVec.eq_of_toNat_eq ?_
  rw [aluDiv_toNat, Nat.div_self (toNat_pos_of_ne h)]
  rfl

theorem aluMod_self (A : Byte) : aluMod A A = 0#8 := by
  refine BitVec.eq_of_toNat_eq ?_
  rw [aluMod_toNat, Nat.mod_self]
  rfl

theorem aluShr_self (A : Byte) : aluShr A A = 0#8 := aluShr_eq_zero Nat.lt_two_pow_self

/-! ## The flags of a comparison -/

/-- The comparison of the two bytes as unsigned numbers, and the flags it gives. -/
theorem compareFlags_cases (A B : Byte) :
    (A.toNat = B.toNat ∧ compareFlags A B = 0b001#3) ∨ (B.toNat < A.toNat ∧ compareFlags A B = 0b010#3) ∨
      (A.toNat < B.toNat ∧ compareFlags A B = 0b100#3) := by
  unfold compareFlags
  split_ifs with heq hlt
  · exact .inl ⟨congrArg _ heq, rfl⟩
  · exact .inr (.inl ⟨hlt, rfl⟩)
  · have hne : A.toNat ≠ B.toNat := fun h => heq (BitVec.eq_of_toNat_eq h)
    exact .inr (.inr ⟨by omega, rfl⟩)

theorem flagE_compareFlags (A B : Byte) : flagE (compareFlags A B) = true ↔ A.toNat = B.toNat := by
  rcases compareFlags_cases A B with ⟨h, hf⟩ | ⟨h, hf⟩ | ⟨h, hf⟩ <;> simp [hf, flagE] <;> omega

theorem flagG_compareFlags (A B : Byte) : flagG (compareFlags A B) = true ↔ A.toNat > B.toNat := by
  rcases compareFlags_cases A B with ⟨h, hf⟩ | ⟨h, hf⟩ | ⟨h, hf⟩ <;> simp [hf, flagG] <;> omega

theorem flagL_compareFlags (A B : Byte) : flagL (compareFlags A B) = true ↔ A.toNat < B.toNat := by
  rcases compareFlags_cases A B with ⟨h, hf⟩ | ⟨h, hf⟩ | ⟨h, hf⟩ <;> simp [hf, flagL] <;> omega

end Sys2Proof.Machine

namespace Sys2Proof.Proofs

open Sys2Proof Sys2Proof.Machine

/-- Settles O29. -/
theorem addStoresTheSum : Obligations.AddStoresTheSum := by
  unfold Obligations.AddStoresTheSum
  exact ⟨regRegFormat_of_lookup rfl fun _ _ => rfl, aluStores_of_exec (fun _ _ _ => rfl) aluAdd_toNat⟩

/-- Settles O30. -/
theorem subStoresTheDifference : Obligations.SubStoresTheDifference := by
  unfold Obligations.SubStoresTheDifference
  exact ⟨regRegFormat_of_lookup rfl fun _ _ => rfl, aluStores_of_exec (fun _ _ _ => rfl) aluSub_toNat⟩

/-- Settles O31. -/
theorem mulStoresTheLowByte : Obligations.MulStoresTheLowByte := by
  unfold Obligations.MulStoresTheLowByte
  exact ⟨regRegFormat_of_lookup rfl fun _ _ => rfl, aluStores_of_exec (fun _ _ _ => rfl) aluMul_toNat⟩

/-- Settles O32. -/
theorem divStoresTheQuotient : Obligations.DivStoresTheQuotient := by
  unfold Obligations.DivStoresTheQuotient
  exact ⟨regRegFormat_of_lookup rfl fun _ _ => rfl, aluDivides_of_exec (fun _ _ _ => rfl) aluDiv_toNat⟩

/-- Settles O33. -/
theorem modStoresTheRemainder : Obligations.ModStoresTheRemainder := by
  unfold Obligations.ModStoresTheRemainder
  exact ⟨regRegFormat_of_lookup rfl fun _ _ => rfl, aluDivides_of_exec (fun _ _ _ => rfl) aluMod_toNat⟩

/-- Settles O34. -/
theorem orStoresTheDisjunction : Obligations.OrStoresTheDisjunction := by
  unfold Obligations.OrStoresTheDisjunction
  exact ⟨regRegFormat_of_lookup rfl fun _ _ => rfl,
    aluStores_of_exec (f := aluOr) (fun _ _ _ => rfl) fun _ _ _ _ => BitVec.getLsbD_or⟩

/-- Settles O35. -/
theorem xorStoresTheExclusiveOr : Obligations.XorStoresTheExclusiveOr := by
  unfold Obligations.XorStoresTheExclusiveOr
  exact ⟨regRegFormat_of_lookup rfl fun _ _ => rfl,
    aluStores_of_exec (f := aluXor) (fun _ _ _ => rfl) fun _ _ _ _ => BitVec.getLsbD_xor⟩

/-- Settles O36. -/
theorem shlShiftsByTheWholeCount : Obligations.ShlShiftsByTheWholeCount := by
  unfold Obligations.ShlShiftsByTheWholeCount
  exact ⟨regRegFormat_of_lookup rfl fun _ _ => rfl,
    aluStores_of_exec (fun _ _ _ => rfl) fun A B => ⟨aluShl_toNat A B, aluShl_of_eight_le A⟩⟩

/-- Settles O37. -/
theorem shrShiftsLogically : Obligations.ShrShiftsLogically := by
  unfold Obligations.ShrShiftsLogically
  exact ⟨regRegFormat_of_lookup rfl fun _ _ => rfl,
    aluStores_of_exec (fun _ _ _ => rfl) fun A B => ⟨aluShr_toNat A B, aluShr_of_eight_le A⟩⟩

/-- Settles O38: the flags of the next state are `compareFlags` of the two bytes, and nothing else but pc is written. -/
theorem cmpSetsExactlyOneFlag : Obligations.CmpSetsExactlyOneFlag := by
  unfold Obligations.CmpSetsExactlyOneFlag
  refine ⟨regRegFormat_of_lookup rfl fun _ _ => rfl, fun a b s => ⟨_, exec_cmp_regByte a b s, ?_⟩⟩
  exact ⟨flagE_compareFlags _ _, flagG_compareFlags _ _, flagL_compareFlags _ _, compareFlags_oneHot _ _,
    ⟨fun _ _ => rfl, fun _ _ => rfl⟩, rfl, rfl, rfl, rfl⟩

/-- Settles O39: the values are Nat's quotient and remainder (`aluDiv_toNat`, `aluMod_toNat`). -/
theorem divAndModAreOneDivision : Obligations.DivAndModAreOneDivision := by
  unfold Obligations.DivAndModAreOneDivision
  intro a b s hb
  refine ⟨_, _, aluDivide_of_ne aluDiv a hb, aluDivide_of_ne aluMod a hb, ?_, ?_⟩
  · rw [reg_setReg_advance, reg_setReg_advance, aluDiv_toNat, aluMod_toNat, Nat.div_add_mod']
  · rw [reg_setReg_advance, aluMod_toNat]
    exact Nat.mod_lt _ (toNat_pos_of_ne hb)

/-- Settles O40: each clause is the shared form at `a = b`, and the operation's value at one operand twice. -/
theorem sameRegisterOperands : Obligations.SameRegisterOperands := by
  unfold Obligations.SameRegisterOperands
  intro a s
  refine ⟨⟨_, aluStore_regByte aluAdd a a s, ?_⟩, ⟨_, aluStore_regByte aluSub a a s, ?_⟩,
    ⟨_, aluStore_regByte aluMul a a s, ?_⟩, fun h => ⟨_, aluDivide_of_ne aluDiv a h, ?_⟩, aluDivide_of_eq aluDiv a,
    fun h => ⟨_, aluDivide_of_ne aluMod a h, ?_⟩, aluDivide_of_eq aluMod a, ⟨_, aluStore_regByte aluOr a a s, ?_⟩,
    ⟨_, aluStore_regByte aluXor a a s, ?_⟩, ⟨_, aluStore_regByte aluShl a a s, ?_⟩,
    ⟨_, aluStore_regByte aluShr a a s, ?_⟩, ⟨_, exec_cmp_regByte a a s, (flagE_compareFlags _ _).2 rfl⟩⟩ <;>
    rw [reg_setReg_advance]
  · rw [aluAdd_toNat, two_mul]
  · exact aluSub_self _
  · rw [aluMul_toNat, sq]
  · exact aluDiv_self h
  · exact aluMod_self _
  · exact BitVec.or_self
  · exact BitVec.xor_self
  · exact aluShl_toNat _ _
  · exact aluShr_self _

end Sys2Proof.Proofs
end

