-- ==== Sys2Proof/Proofs/Stack.lean ====
section
/-! SUPPORT. PUSH, POP, CALL and RET at a legal register (R140 to R146). The next state of each is said once, with the new
stack pointer given as the byte `c` next to the old one; the store of a byte is an operation of its own with its rules. -/

namespace Sys2Proof.Machine

/-! ## Storing one byte -/

/-- What `memWrite` answers at a byte's address (`memWrite_eq_store`). -/
def State.store (s : State) (c v : Byte) : State := { s with mem := s.mem.write c.toNat v }

section
variable (s : State) (c v : Byte)

theorem memWrite_eq_store : memWrite (c.toNat : Int) v s = .ok (s.store c v) := memWrite_byte c v s

@[simp] theorem State.store_pc : (s.store c v).pc = s.pc := rfl
@[simp] theorem State.store_fl : (s.store c v).fl = s.fl := rfl
@[simp] theorem State.store_running : (s.store c v).running = s.running := rfl
@[simp] theorem State.store_fault : (s.store c v).fault = s.fault := rfl
@[simp] theorem State.store_out : (s.store c v).out = s.out := rfl
@[simp] theorem State.store_reg (q : RegIdx) : (s.store c v).reg q = s.reg q := rfl
@[simp] theorem State.store_sp : (s.store c v).sp = s.sp := rfl

variable {s}

theorem State.store_byteAt_same (h : s.mem.wf = true) : (s.store c v).byteAt c.toNat = v :=
  (State.byteAt_write h _ _ v).trans (if_pos rfl)

theorem State.store_byteAt_other (h : s.mem.wf = true) {a : Nat} (ha : a ≠ c.toNat) :
    (s.store c v).byteAt a = s.byteAt a :=
  (State.byteAt_write h _ _ v).trans (if_neg ha)

end

/-! ## Frames -/

section
variable {s t : State} {written : List RegIdx} {stored : List Nat}

theorem Keeps.advance (h : Keeps s t written stored) (n : Nat) : Keeps s (t.advance n) written stored :=
  ⟨h.regs, h.bytes⟩

theorem Keeps.jumpTo (h : Keeps s t written stored) (v : Byte) : Keeps s (t.jumpTo v) written stored :=
  ⟨h.regs, h.bytes⟩

end

theorem keeps_setSp (s : State) (v : Byte) : Keeps s (s.setSp v) [7] [] where
  regs := fun _ hq => s.setReg_reg_other v (mt List.mem_singleton.2 hq)
  bytes := fun _ _ => rfl

theorem keeps_setSp_store {s : State} (h : s.mem.wf = true) (c v : Byte) :
    Keeps s ((s.setSp c).store c v) [7] [c.toNat] where
  regs := (keeps_setSp s c).regs
  bytes := fun _ ha => State.store_byteAt_other (s := s.setSp c) c v h (mt List.mem_singleton.2 ha)

theorem keeps_setReg_setSp (s : State) (r : RegIdx) (v c : Byte) : Keeps s ((s.setReg r v).setSp c) [r, 7] [] where
  regs := fun q hq => by
    simp only [List.mem_cons, List.not_mem_nil, or_false, not_or] at hq
    rw [(keeps_setSp (s.setReg r v) c).regs q (mt List.mem_singleton.1 hq.2), s.setReg_reg_other v hq.1]
  bytes := fun _ _ => rfl

/-! ## Neighbouring addresses -/

theorem checkAddr_of_toNat {c : Byte} {a : Int} (h : (c.toNat : Int) = a) : checkAddr a = .ok c := by
  have hc := c.isLt
  subst h
  rw [checkAddr_nat (by omega), BitVec.ofNat_toNat, BitVec.setWidth_eq]

theorem checkAddr_eq_fault {a b : Int} (h : a = b) (hb : b < 0 ∨ 255 < b) : checkAddr a = .error ⟨.address, b⟩ :=
  h.symm ▸ checkAddr_outside hb

theorem exists_byte_of_lt {n : Nat} (h : n < 256) : ∃ c : Byte, c.toNat = n := ⟨BitVec.ofNatLT n h, rfl⟩

theorem exists_byte_below {b : Byte} (h : 0 < b.toNat) : ∃ c : Byte, c.toNat + 1 = b.toNat := by
  have hb := b.isLt
  obtain ⟨c, hc⟩ := exists_byte_of_lt (n := b.toNat - 1) (by omega)
  exact ⟨c, by omega⟩

theorem exists_byte_above {b : Byte} (h : b.toNat < 255) : ∃ c : Byte, c.toNat = b.toNat + 1 :=
  exists_byte_of_lt (by omega)

/-! ## The next states -/

section
variable (r : RegIdx) {s : State}

theorem exec_push {c : Byte} (hc : c.toNat + 1 = s.sp.toNat) : exec (.push (regByte r)) s =
    .next (((s.setSp c).store c ((s.setSp c).reg r)).advance 2) := by
  have hsp : checkAddr ((s.sp.toNat : Int) - 1) = .ok c := checkAddr_of_toNat (by omega)
  simp only [exec, execPush, regIndex_regByte, hsp, except_bind_ok, State.setSp_sp, memWrite_eq_store, except_pure,
    finish_ok]

theorem exec_push_underflow (h : s.sp.toNat = 0) : exec (.push (regByte r)) s = FaultNext s .address (-1) := by
  have hsp : checkAddr ((s.sp.toNat : Int) - 1) = .error ⟨.address, -1⟩ := checkAddr_eq_fault (by omega) (by omega)
  simp only [exec, execPush, regIndex_regByte, hsp, except_bind_ok, except_bind_error, finish_error]
  rfl

theorem exec_pop {c : Byte} (hc : c.toNat = (popBase r (s.byteAt s.sp.toNat) s).toNat + 1) :
    exec (.pop (regByte r)) s = .next (((s.setReg r (s.byteAt s.sp.toNat)).setSp c).advance 2) := by
  have hsp : checkAddr (((popBase r (s.byteAt s.sp.toNat) s).toNat : Int) + 1) = .ok c := checkAddr_of_toNat (by omega)
  simp only [exec, execPop, regIndex_regByte, memRead_byte, hsp, except_bind_ok, except_pure, finish_ok]

theorem exec_pop_overflow (h : (popBase r (s.byteAt s.sp.toNat) s).toNat = 255) :
    exec (.pop (regByte r)) s = FaultNext s .address 256 := by
  have hsp : checkAddr (((popBase r (s.byteAt s.sp.toNat) s).toNat : Int) + 1) = .error ⟨.address, 256⟩ :=
    checkAddr_eq_fault (by omega) (by omega)
  simp only [exec, execPop, regIndex_regByte, memRead_byte, hsp, except_bind_ok, except_bind_error, finish_error]
  rfl

theorem popBase_other {r : RegIdx} (h : r ≠ 7) (v : Byte) (s : State) : popBase r v s = s.sp := if_neg h

theorem popBase_sp (v : Byte) (s : State) : popBase 7 v s = v := if_pos rfl

theorem exec_call {c d : Byte} (hd : d.toNat = s.pc.toNat + 2) (hc : c.toNat + 1 = s.sp.toNat) :
    exec (.call (regByte r)) s = .next (((s.setSp c).store c d).jumpTo ((s.setSp c).reg r)) := by
  have hret : checkAddr ((s.pc.toNat : Int) + 2) = .ok d := checkAddr_of_toNat (by omega)
  have hsp : checkAddr ((s.sp.toNat : Int) - 1) = .ok c := checkAddr_of_toNat (by omega)
  simp only [exec, execCall, regIndex_regByte, hret, hsp, except_bind_ok, State.setSp_sp, memWrite_eq_store, except_pure,
    finish_ok, State.store_reg]

theorem exec_call_return_outside (h : 253 < s.pc.toNat) :
    exec (.call (regByte r)) s = FaultNext s .address (s.pc.toNat + 2) := by
  have hret : checkAddr ((s.pc.toNat : Int) + 2) = .error ⟨.address, (s.pc.toNat : Int) + 2⟩ := checkAddr_outside (by omega)
  simp only [exec, execCall, regIndex_regByte, hret, except_bind_ok, except_bind_error, finish_error]
  rfl

theorem exec_call_underflow (hpc : s.pc.toNat ≤ 253) (h : s.sp.toNat = 0) :
    exec (.call (regByte r)) s = FaultNext s .address (-1) := by
  obtain ⟨d, hd⟩ := exists_byte_of_lt (n := s.pc.toNat + 2) (by omega)
  have hret : checkAddr ((s.pc.toNat : Int) + 2) = .ok d := checkAddr_of_toNat (by omega)
  have hsp : checkAddr ((s.sp.toNat : Int) - 1) = .error ⟨.address, -1⟩ := checkAddr_eq_fault (by omega) (by omega)
  simp only [exec, execCall, regIndex_regByte, hret, hsp, except_bind_ok, except_bind_error, finish_error]
  rfl

theorem exec_ret {c : Byte} (hc : c.toNat = s.sp.toNat + 1) :
    exec .ret s = .next ((s.jumpTo (s.byteAt s.sp.toNat)).setSp c) := by
  have hsp : checkAddr ((s.sp.toNat : Int) + 1) = .ok c := checkAddr_of_toNat (by omega)
  simp only [exec, execRet, memRead_byte, hsp, except_bind_ok, except_pure, finish_ok]

theorem exec_ret_overflow (h : s.sp.toNat = 255) : exec .ret s = FaultNext s .address 256 := by
  have hsp : checkAddr ((s.sp.toNat : Int) + 1) = .error ⟨.address, 256⟩ := checkAddr_eq_fault (by omega) (by omega)
  simp only [exec, execRet, memRead_byte, hsp, except_bind_ok, except_bind_error, finish_error]
  rfl

end

end Sys2Proof.Machine

namespace Sys2Proof.Proofs

open Sys2Proof Sys2Proof.Machine

/-- Settles O41: the byte stored is read after the decrement, so for register 7 it is the new stack pointer. -/
theorem pushDecrementsThenStores : Obligations.PushDecrementsThenStores := by
  unfold Obligations.PushDecrementsThenStores
  refine ⟨regFormat_of_lookup rfl fun _ => rfl, fun r s hwf hsp => ?_, fun r s => exec_push_underflow r⟩
  obtain ⟨c, hc⟩ := exists_byte_below hsp
  have hnew : s.sp.toNat - 1 = c.toNat := by omega
  rw [hnew]
  refine ⟨_, exec_push r hc, ?_, ?_, (keeps_setSp_store hwf c _).advance 2, ⟨rfl, rfl, rfl, rfl⟩, rfl⟩
  · rw [State.advance_sp, State.store_sp, State.setSp_sp]
  · rw [State.advance_byteAt, State.store_byteAt_same (s := s.setSp c) c _ hwf, State.advance_sp, State.store_sp,
      State.setSp_sp]
    exact s.setSp_reg r c

/-- Settles O42: what is incremented (`popBase`) is the old stack pointer, and for POP R7 the popped byte. -/
theorem popLoadsThenIncrements : Obligations.PopLoadsThenIncrements := by
  unfold Obligations.PopLoadsThenIncrements
  refine ⟨regFormat_of_lookup rfl fun _ => rfl, fun r s hr hsp => ?_, fun r s hr hsp => ?_, fun s hv => ?_, fun s hv => ?_⟩
  · obtain ⟨c, hc⟩ := exists_byte_above hsp
    refine ⟨_, exec_pop r (by rw [popBase_other hr]; exact hc), ?_, ?_, (keeps_setReg_setSp s r _ c).advance 2,
      ⟨rfl, rfl, rfl, rfl⟩, rfl⟩
    · rw [State.advance_reg, State.setSp_reg, if_neg hr, State.setReg_reg_same]
    · rw [State.advance_sp, State.setSp_sp, hc]
  · exact exec_pop_overflow r (by rw [popBase_other hr]; exact hsp)
  · obtain ⟨c, hc⟩ := exists_byte_above hv
    refine ⟨_, exec_pop 7 (by rw [popBase_sp]; exact hc), ?_, ?_, ⟨rfl, rfl, rfl, rfl⟩, rfl⟩
    · rw [State.advance_sp, State.setSp_sp, hc]
    · have hkeeps := (keeps_setReg_setSp s 7 (s.byteAt s.sp.toNat) c).advance 2
      exact ⟨fun q hq => hkeeps.regs q (by simpa using hq), hkeeps.bytes⟩
  · exact exec_pop_overflow 7 (by rw [popBase_sp]; exact hv)

/-- Settles O43: the return address is checked before the stack pointer, and the target is read after the decrement. -/
theorem callPushesTheReturnAddress : Obligations.CallPushesTheReturnAddress := by
  unfold Obligations.CallPushesTheReturnAddress
  refine ⟨regFormat_of_lookup rfl fun _ => rfl, fun r s hwf hpc hsp => ?_, fun r s => exec_call_return_outside r,
    fun r s => exec_call_underflow r⟩
  obtain ⟨c, hc⟩ := exists_byte_below hsp
  obtain ⟨d, hd⟩ := exists_byte_of_lt (n := s.pc.toNat + 2) (by omega)
  have hnew : s.sp.toNat - 1 = c.toNat := by omega
  rw [hnew]
  refine ⟨_, exec_call r hd hc, ?_, ?_, ?_, (keeps_setSp_store hwf c d).jumpTo _, ⟨rfl, rfl, rfl, rfl⟩⟩
  · rw [State.jumpTo_sp, State.store_sp, State.setSp_sp]
  · rw [State.jumpTo_byteAt, State.store_byteAt_same (s := s.setSp c) c d hwf, hd]
  · rw [jumpTo_pc_toNat, State.setSp_reg, apply_ite BitVec.toNat]

/-- Settles O44: RET has no operand, so it is fetched at 255 too. -/
theorem retPopsThePc : Obligations.RetPopsThePc := by
  unfold Obligations.RetPopsThePc
  refine ⟨decode_nullary rfl, fun s hsp => ?_, fun s => exec_ret_overflow, fun s hen hpc hop => ?_⟩
  · obtain ⟨c, hc⟩ := exists_byte_above hsp
    refine ⟨_, exec_ret hc, jumpTo_pc_toNat s _, ?_, ⟨(keeps_setSp s c).regs, fun _ _ => rfl⟩, ⟨rfl, rfl, rfl, rfl⟩⟩
    rw [State.setSp_sp, hc]
  · exact step_fetched (i := .ret) hen (fetch_nullary hpc (by rw [hop]; rfl))

/-- Settles O45: POP reads the byte just stored and increments the stack pointer back to its old value. -/
theorem pushThenPopRoundTrips : Obligations.PushThenPopRoundTrips := by
  unfold Obligations.PushThenPopRoundTrips
  intro r s hr hwf hsp
  obtain ⟨c, hc⟩ := exists_byte_below hsp
  have hnew : s.sp.toNat - 1 = c.toNat := by omega
  rw [hnew]
  have hkeeps := keeps_setSp_store hwf c (s.reg r)
  have hstored := State.store_byteAt_same (s := s.setSp c) c (s.reg r) hwf
  have hpush := exec_push r hc
  rw [s.setSp_reg r c, if_neg hr] at hpush
  have hsp' : (((s.setSp c).store c (s.reg r)).advance 2).sp = c := s.setSp_sp c
  refine ⟨_, _, hpush, exec_pop r (c := s.sp) (by rw [popBase_other hr, hsp', hc]), fun q => ?_, hstored, fun a ha => ?_,
    ⟨rfl, rfl, rfl, rfl⟩, ?_⟩
  · rw [State.advance_reg, State.setSp_reg, State.setReg_reg, hsp', State.advance_byteAt, hstored, State.advance_reg]
    split_ifs with h7 hq
    · rw [h7, State.sp_eq_reg]
    · rw [hq]
    · exact hkeeps.regs q (mt List.mem_singleton.1 h7)
  · exact hkeeps.bytes a (mt List.mem_singleton.1 ha)
  · simp [BitVec.add_assoc]

/-- Settles O46: RET's target and stack pointer come from the two values that the premises hold fixed since the CALL. -/
theorem callThenRetReturns : Obligations.CallThenRetReturns := by
  unfold Obligations.CallThenRetReturns
  intro r s hwf hpc hsp
  obtain ⟨c, hc⟩ := exists_byte_below hsp
  obtain ⟨d, hd⟩ := exists_byte_of_lt (n := s.pc.toNat + 2) (by omega)
  refine ⟨_, exec_call r hd hc, fun u husp hubyte => ?_⟩
  rw [State.jumpTo_sp, State.store_sp, State.setSp_sp] at husp hubyte
  rw [State.jumpTo_byteAt, State.store_byteAt_same (s := s.setSp c) c d hwf] at hubyte
  refine ⟨_, exec_ret (s := u) (c := s.sp) (by rw [husp, hc]), ?_, State.setSp_sp _ _, fun _ => rfl⟩
  rw [State.setSp_pc, jumpTo_pc_toNat, hubyte, hd]

end Sys2Proof.Proofs
end

