-- ==== Sys2Proof/Proofs/MemoryFrame.lean ====
section
/-! SUPPORT. The canonical form determines the data (R35, R50), who writes memory (R59), and that a byte written over the next
opcode is the opcode decoded next (R66). -/

namespace Sys2Proof.Machine

/-! ## Canonical memories with equal cells -/

/-- The first listed address of one canonical memory is at least that of another one that reads the same: at its own first
address this one is not blank, and the other is blank below its own. -/
theorem Memory.head_le_of_read_eq {a b lo : Nat} {v w : Byte} {m m' : Memory}
    (hm : Memory.wfFrom lo ((a, v) :: m) = true) (hm' : Memory.wfFrom lo ((b, w) :: m') = true)
    (h : ∀ i, Memory.read ((a, v) :: m) i = Memory.read ((b, w) :: m') i) : b ≤ a := by
  obtain ⟨-, -, hv, -⟩ := (Memory.wfFrom_head lo a v m).1 hm
  by_contra hlt
  have hbelow : Memory.read ((b, w) :: m') a = Memory.blank :=
    Memory.read_below (lo := b)
      ((Memory.wfFrom_head b b w m').2 ⟨le_rfl, ((Memory.wfFrom_head lo b w m').1 hm').2⟩) (by omega)
  rw [← h a, Memory.read_head, if_pos rfl] at hbelow
  exact hv hbelow

/-- A canonical memory that lists a cell does not read as blank everywhere. -/
theorem Memory.read_head_ne_blank {a lo : Nat} {v : Byte} {m : Memory} (hm : Memory.wfFrom lo ((a, v) :: m) = true) :
    Memory.read ((a, v) :: m) a ≠ Memory.blank := by
  obtain ⟨-, -, hv, -⟩ := (Memory.wfFrom_head lo a v m).1 hm
  rw [Memory.read_head, if_pos rfl]
  exact hv

theorem Memory.eq_of_read_eq {m : Memory} : ∀ {lo : Nat} {m' : Memory}, Memory.wfFrom lo m = true →
    Memory.wfFrom lo m' = true → (∀ i, Memory.read m i = Memory.read m' i) → m = m' := by
  induction m with
  | nil =>
    rintro lo (_ | ⟨⟨b, w⟩, m'⟩) - hm' h
    · rfl
    · exact absurd (h b).symm (Memory.read_head_ne_blank hm')
  | cons c m ih =>
    obtain ⟨a, v⟩ := c
    rintro lo (_ | ⟨⟨b, w⟩, m'⟩) hm hm' h
    · exact absurd (h a) (Memory.read_head_ne_blank hm)
    · obtain rfl : a = b :=
        le_antisymm (Memory.head_le_of_read_eq hm' hm fun i => (h i).symm) (Memory.head_le_of_read_eq hm hm' h)
      obtain ⟨-, -, -, htail⟩ := (Memory.wfFrom_head lo a v m).1 hm
      obtain ⟨-, -, -, htail'⟩ := (Memory.wfFrom_head lo a w m').1 hm'
      have hhead : v = w := by simpa [Memory.read_head] using h a
      have hrest : m = m' := ih htail htail' fun i => by
        by_cases hi : i = a
        · rw [Memory.read_below htail (by omega), Memory.read_below htail' (by omega)]
        · simpa [Memory.read_head, hi] using h i
      rw [hhead, hrest]

/-! ## Who writes memory -/

theorem exec_byteAt_changed {i : Instr} {s t : State} {a : Nat} (hwf : s.mem.wf = true) (h : exec i s = .next t)
    (ha : t.byteAt a ≠ s.byteAt a) : storesToStack i = true ∧ a + 1 = s.sp.toNat := by
  rcases exec_cases i s t h with hf | hc
  · obtain ⟨tr, rfl, -⟩ := hf.entry
    exact absurd rfl ha
  · rcases hc.mem with hmem | ⟨hstore, v, c, hsp, hmem⟩
    · exact absurd (congrArg (Memory.read · a) hmem) ha
    · have hac : a = c.toNat := by
        by_contra hne
        rw [State.byteAt, hmem, Memory.read_write hwf, if_neg hne] at ha
        exact ha rfl
      exact ⟨hstore, by omega⟩

end Sys2Proof.Machine

namespace Sys2Proof.Proofs

open Sys2Proof Sys2Proof.Machine

/-- Settles O19: above the last cell both memories are blank, so they agree everywhere, and then `Memory.eq_of_read_eq`
(induction on the lists) applies. -/
theorem equalCellsAreEqualMemories : Obligations.EqualCellsAreEqualMemories := by
  unfold Obligations.EqualCellsAreEqualMemories
  intro m m' hm hm' h
  refine Memory.eq_of_read_eq hm hm' fun i => ?_
  by_cases hi : i < 256
  · exact h i hi
  · rw [Memory.read_above hm (by omega), Memory.read_above hm' (by omega)]

/-- Settles O20. -/
theorem onlyPushAndCallWriteMemory : Obligations.OnlyPushAndCallWriteMemory := by
  unfold Obligations.OnlyPushAndCallWriteMemory
  exact fun i s t a => exec_byteAt_changed

/-- Settles O21: PUSH leaves pc at the byte it stored, and the core enabled. -/
theorem pushedByteIsTheNextOpcode : Obligations.PushedByteIsTheNextOpcode := by
  unfold Obligations.PushedByteIsTheNextOpcode
  intro r s hr hen hwf hsp
  have hspLt := s.sp.isLt
  obtain ⟨c, hc⟩ := exists_byte_below (b := s.sp) (by omega)
  have hpush := exec_push r hc
  rw [s.setSp_reg r c, if_neg hr] at hpush
  generalize ht : ((s.setSp c).store c (s.reg r)).advance 2 = t at hpush
  have hten : t.enabled = true := by rw [← ht]; exact hen
  have htpc : t.pc.toNat = s.pc.toNat + 2 := by
    rw [← ht, State.advance_pc, State.store_pc, State.setSp_pc, BitVec.toNat_add, BitVec.toNat_ofNat]
    omega
  have htbyte : t.byteAt t.pc.toNat = s.reg r := by
    rw [htpc, show s.pc.toNat + 2 = c.toNat by omega, ← ht]
    exact State.store_byteAt_same (s := s.setSp c) c (s.reg r) hwf
  refine ⟨t, hpush, htpc, htbyte, fun hundef => ?_, fun hhlt => ?_⟩
  · rw [← htbyte] at hundef ⊢
    exact step_undefined hten (by omega) hundef
  · exact step_hlt hten (by omega) (htbyte.trans hhlt)

end Sys2Proof.Proofs
end

