-- ==== Sys2Proof/Proofs/Unread.lean ====
section
/-! SUPPORT. RUN and OUT are read by no instruction (R31, R34). A change of the state that no instruction notices is one that
keeps what the handlers read and commutes with what they write (`Unnoticed`); every handler then commutes with it, which is
shown once and used for a change of RUN and for a longer history of output. -/

namespace Sys2Proof.Machine

/-- A change of the state that handlers cannot notice: registers, pc, FL and memory are kept, and every operation by which a
handler writes the state commutes with the change. -/
structure Unnoticed (g : State → State) : Prop where
  regs : ∀ s, (g s).regs = s.regs
  pc : ∀ s, (g s).pc = s.pc
  fl : ∀ s, (g s).fl = s.fl
  mem : ∀ s, (g s).mem = s.mem
  setReg : ∀ s r v, (g s).setReg r v = g (s.setReg r v)
  setFlags : ∀ s f, (g s).setFlags f = g (s.setFlags f)
  store : ∀ s c v, (g s).store c v = g (s.store c v)
  advance : ∀ s n, (g s).advance n = g (s.advance n)
  jumpTo : ∀ s t, (g s).jumpTo t = g (s.jumpTo t)
  emit : ∀ s k v, (g s).emit k v = g (s.emit k v)
  takeFault : ∀ s tr, (g s).takeFault tr = g (s.takeFault tr)

namespace Unnoticed

variable {g : State → State} (hg : Unnoticed g) (s : State)
include hg

theorem reg (r : RegIdx) : (g s).reg r = s.reg r := by rw [State.reg, hg.regs]; rfl

theorem sp : (g s).sp = s.sp := hg.reg s Config.spIndex

theorem setSp (v : Byte) : (g s).setSp v = g (s.setSp v) := hg.setReg s Config.spIndex v

theorem byteAt (a : Nat) : (g s).byteAt a = s.byteAt a := by rw [State.byteAt, hg.mem]; rfl

/-- The end of a handler: a trap is entered alike, and a value goes on to what follows. -/
theorem finish_bind_comm {α : Type} (x : Except Trap α) {k k' : α → Except Trap State}
    (h : ∀ v, finish (g s) (k' v) = onNext g (finish s (k v))) :
    finish (g s) (x >>= k') = onNext g (finish s (x >>= k)) := by
  cases x with
  | error tr => exact congrArg Host.Outcome.next (hg.takeFault s tr)
  | ok v => exact h v

theorem finish_error_comm (tr : Trap) : finish (g s) (.error tr) = onNext g (finish s (.error tr)) :=
  congrArg Host.Outcome.next (hg.takeFault s tr)

omit hg in
theorem finish_ok_comm {t t' : State} (h : t' = g t) : finish (g s) (.ok t') = onNext g (finish s (.ok t)) :=
  congrArg Host.Outcome.next h

/-! ## The shared forms and the other handlers -/

theorem aluStore_comm (f : Byte → Byte → Byte) (a b : Byte) :
    aluStore f a b (g s) = onNext g (aluStore f a b s) := by
  refine hg.finish_bind_comm s _ fun ra => hg.finish_bind_comm s _ fun rb => finish_ok_comm s ?_
  rw [hg.reg, hg.reg, hg.setReg, hg.advance]

theorem aluDivide_comm (f : Byte → Byte → Byte) (a b : Byte) :
    aluDivide f a b (g s) = onNext g (aluDivide f a b s) := by
  refine hg.finish_bind_comm s _ fun ra => hg.finish_bind_comm s _ fun rb => ?_
  rw [hg.reg, hg.reg, hg.pc, hg.setReg, hg.advance]
  split
  · exact hg.finish_error_comm s _
  · exact finish_ok_comm s rfl

theorem execCmp_comm (a b : Byte) : execCmp a b (g s) = onNext g (execCmp a b s) := by
  refine hg.finish_bind_comm s _ fun ra => hg.finish_bind_comm s _ fun rb => finish_ok_comm s ?_
  rw [hg.reg, hg.reg, hg.setFlags, hg.advance]

theorem jumpIf_comm (taken : Bool) (a : Byte) : jumpIf taken a (g s) = onNext g (jumpIf taken a s) := by
  refine hg.finish_bind_comm s _ fun r => finish_ok_comm s ?_
  rw [hg.reg, hg.jumpTo, hg.advance]
  cases taken <;> rfl

theorem emitRegister_comm (k : OutKind) (a : Byte) : emitRegister k a (g s) = onNext g (emitRegister k a s) := by
  refine hg.finish_bind_comm s _ fun r => finish_ok_comm s ?_
  rw [hg.reg, hg.emit, hg.advance]

theorem execLdi_comm (a v : Byte) : execLdi a v (g s) = onNext g (execLdi a v s) := by
  refine hg.finish_bind_comm s _ fun r => finish_ok_comm s ?_
  rw [hg.setReg, hg.advance]

theorem execPush_comm (a : Byte) : execPush a (g s) = onNext g (execPush a s) := by
  unfold execPush
  rw [hg.sp]
  refine hg.finish_bind_comm s _ fun r => hg.finish_bind_comm s _ fun c => ?_
  simp only [hg.setSp, hg.reg, hg.sp, memWrite_eq_store, except_bind_ok, hg.store, hg.advance]
  exact finish_ok_comm s rfl

theorem execPop_comm (a : Byte) : execPop a (g s) = onNext g (execPop a s) := by
  unfold execPop
  simp only [popBase, hg.sp, memRead_byte, hg.byteAt, except_bind_ok]
  refine hg.finish_bind_comm s _ fun r => hg.finish_bind_comm s _ fun c => finish_ok_comm s ?_
  rw [hg.setReg, hg.setSp, hg.advance]

theorem execCall_comm (a : Byte) : execCall a (g s) = onNext g (execCall a s) := by
  unfold execCall
  rw [hg.sp, hg.pc]
  refine hg.finish_bind_comm s _ fun r => hg.finish_bind_comm s _ fun ret => hg.finish_bind_comm s _ fun c => ?_
  simp only [hg.setSp, hg.sp, memWrite_eq_store, except_bind_ok, hg.store, hg.reg, hg.jumpTo]
  exact finish_ok_comm s rfl

theorem execRet_comm : execRet (g s) = onNext g (execRet s) := by
  unfold execRet
  simp only [hg.sp, memRead_byte, hg.byteAt, except_bind_ok]
  refine hg.finish_bind_comm s _ fun c => finish_ok_comm s ?_
  rw [hg.jumpTo, hg.setSp]

/-! ## The fetch and all instructions -/

theorem memRead_eq (a : Int) : memRead a (g s) = memRead a s := by rw [memRead, hg.mem]; rfl

theorem fetch_eq : fetch (g s) = fetch s := by
  simp only [fetch, hg.pc, hg.memRead_eq]

/-- Every instruction but HLT, which writes RUN, commutes with a change that no handler notices. -/
theorem exec_comm {i : Instr} (hi : i ≠ .hlt) : exec i (g s) = onNext g (exec i s) := by
  cases i with
  | hlt => exact absurd rfl hi
  | ret => exact hg.execRet_comm s
  | push a => exact hg.execPush_comm s a
  | pop a => exact hg.execPop_comm s a
  | call a => exact hg.execCall_comm s a
  | jmp a => exact hg.jumpIf_comm s true a
  | jeq a | jne a =>
    simp only [exec, execJeq, execJne, hg.fl]
    exact hg.jumpIf_comm s _ a
  | prn a | pra a => exact hg.emitRegister_comm s _ a
  | ldi a v => exact hg.execLdi_comm s a v
  | cmp a b => exact hg.execCmp_comm s a b
  | div a b | mod a b => exact hg.aluDivide_comm s _ a b
  | add a b | sub a b | mul a b | or a b | xor a b | shl a b | shr a b => exact hg.aluStore_comm s _ a b

end Unnoticed

/-! ## The two changes -/

/-- The same state with RUN overwritten. -/
def setRunning (b : Bool) (s : State) : State := { s with running := b }

/-- The same state with a longer history of output. -/
def prependOut (es : List OutEvent) (s : State) : State := { s with out := es ++ s.out }

theorem setRunning_unnoticed (b : Bool) : Unnoticed (setRunning b) := by
  constructor <;> intros <;> rfl

theorem prependOut_unnoticed (es : List OutEvent) : Unnoticed (prependOut es) where
  regs _ := rfl
  pc _ := rfl
  fl _ := rfl
  mem _ := rfl
  setReg _ _ _ := rfl
  setFlags _ _ := rfl
  store _ _ _ := rfl
  advance _ _ := rfl
  jumpTo _ _ := rfl
  emit s k v := by
    simp only [prependOut, State.emit, List.append_assoc]
  takeFault _ _ := rfl

theorem exec_prependOut (es : List OutEvent) (i : Instr) (s : State) :
    exec i (prependOut es s) = onNext (prependOut es) (exec i s) := by
  by_cases hi : i = .hlt
  · subst hi; rfl
  · exact (prependOut_unnoticed es).exec_comm s hi

theorem step_prependOut (es : List OutEvent) (s : State) :
    step (prependOut es s) = onNext (prependOut es) (step s) := by
  have hen : (prependOut es s).enabled = s.enabled := rfl
  have hfetch := (prependOut_unnoticed es).fetch_eq s
  rcases step_cases s with ⟨h, hs⟩ | ⟨h, tr, hf, hs⟩ | ⟨h, i, hf, hs⟩ <;> rw [← hen] at h <;> rw [hs]
  · exact step_not_enabled h
  · rw [← hfetch] at hf
    exact step_fetch_fault h hf
  · rw [← hfetch] at hf
    exact (step_fetched h hf).trans (exec_prependOut es i s)

/-! ## Who writes RUN -/

theorem exec_running_changed {i : Instr} {s t : State} (h : exec i s = .next t) (hrun : t.running ≠ s.running) :
    i = .hlt ∧ t.running = false := by
  rcases exec_cases i s t h with hf | hc
  · obtain ⟨tr, rfl, -⟩ := hf.entry
    exact absurd rfl hrun
  · exact hc.running.resolve_left hrun

end Sys2Proof.Machine

namespace Sys2Proof.Proofs

open Sys2Proof Sys2Proof.Machine

/-- Settles O23: HLT alone writes RUN (`exec_running_changed`), and every other instruction commutes with a change of it. -/
theorem runningFlagRule : Obligations.RunningFlagRule := by
  unfold Obligations.RunningFlagRule
  refine ⟨rfl, fun i s t => exec_running_changed, fun i s b hi => (setRunning_unnoticed b).exec_comm s hi, fun _ _ => rfl,
    fun s hrun => ?_⟩
  exact step_not_enabled (enabled_eq_false_of_halted_or_faulted (.inl hrun))

/-- Settles O24: the events appended are those of `Commits`, and a longer history is passed on (`step_prependOut`). -/
theorem outputOnlyGrows : Obligations.OutputOnlyGrows := by
  unfold Obligations.OutputOnlyGrows
  refine ⟨fun s t h => ?_, fun s es => step_prependOut es s⟩
  rcases step_next_cases h with ⟨-, rfl⟩ | ⟨-, tr, -, rfl⟩ | ⟨-, i, hi, hc⟩
  · exact .inl rfl
  · exact .inl rfl
  · rcases hc.out with hout | ⟨r, rfl, hout⟩ | ⟨r, rfl, hout⟩
    · exact .inl hout
    · exact .inr (.inl ⟨r, hi, hout⟩)
    · exact .inr (.inr ⟨r, hi, hout⟩)

end Sys2Proof.Proofs
end
